-- ==== Sys2Proof/Word.lean ====
section
/-! DEFINITION. The widths of 00_scope.md rule R3 as types: the values the spec calls unsigned integers of a stated width
(rule R4) are bit vectors of that width. -/

namespace Sys2Proof

/-- WORD_BITS = 32: a memory word, a register, the container of one instruction (R3, R6). -/
abbrev Word := BitVec 32

/-- ADDR_BITS = PC_BITS = 6: a word address 0 to 63, and the program counter (R3, R13, R20). -/
abbrev Addr := BitVec 6

/-- OPCODE_BITS = 4 (R3, R33). -/
abbrev Opcode := BitVec 4

/-- OPERAND_BITS = 18 (R3, R34). -/
abbrev Operand := BitVec 18

/-- IMM_BITS = 16 (R3, R37). -/
abbrev Imm := BitVec 16

end Sys2Proof
end

