-- ==== Sys2Proof/Config.lean ====
section
/-! DEFINITION. What is fixed for the machine: the sizes of rule R3 that the machine's text uses by name, and the parameters
of 92_eei_decisions.md (FIELD_JUSTIFY, EXCESS_BITS, HIGH_BITS, CMP_MODE) as types. The value the spec takes of each stands
where it is used: `decodeReading` in Decode.lean, `cmpMode` in Machine/Flags.lean, `jmpSkipsIncrement` (a Bool) in
Machine/Operands.lean. No value of this machine is left free (93_implementation_defined.md). -/

namespace Sys2Proof.Config

/-- MEM_WORDS (R3, R11). -/
def memWords : Nat := 64

/-- LAST_ADDR (R3): the address at which a run ends without a halt. -/
def lastAddr : Addr := 63

/-- 2 to the TARGET_BITS (R3, R38): jump targets are 0 to 31. -/
def targetLimit : Nat := 32

/-- What a memory word reads as that neither LOAD nor `sto` has written: 0 (R11, decision D10). -/
def memResetWord : Word := 0

/-- FIELD_JUSTIFY (D1): where the fields of opcodes 2, 3, 5 to 10 lie in the operand. -/
inductive FieldJustify where
  | low
  | high
deriving DecidableEq, Repr

/-- EXCESS_BITS (D2): what a set operand bit outside the fields of opcodes 2, 3, 5 to 10 does. -/
inductive ExcessBits where
  | fault
  | ignore
deriving DecidableEq, Repr

/-- HIGH_BITS (D3): what word bits 31:22 mean to the decoder. -/
inductive HighBits where
  | ignore
  | unrecognized
deriving DecidableEq, Repr

/-- CMP_MODE (D6): how `cmp` takes the signed difference. -/
inductive CmpMode where
  | exact
  | wrap32
  | cast32
deriving DecidableEq, Repr

/-- One reading of the instruction word: the three parameters the decoder depends on. -/
structure DecodeReading where
  justify : FieldJustify
  excess : ExcessBits
  high : HighBits
deriving DecidableEq, Repr

end Sys2Proof.Config
end

