-- ==== Sys2Proof/Syntax.lean ====
section
/-! DEFINITION. The instructions: one constructor per row of spec/opcode_table.json, and the names they use. -/

namespace Sys2Proof

/-- The four general registers by the assembler's names (R10, R47). -/
inductive Reg where
  | r0
  | r1
  | r2
  | r3
deriving DecidableEq, Repr

/-- The one exception of the engine (R78), which has no numeric code (D20). -/
inductive ExecutionError where
  | addressOutOfRange
deriving DecidableEq, Repr

/-- The sixteen opcodes of R43, operands in the order of the source's table (R47). The operand bits that format N ignores
(R44) are no operands. A jump target is held as a word address of `pc`'s width; that it is at most 31 is a check of
WellFormed.lean (R38). -/
inductive Instr where
  /-- opcode 0, format N (R75) -/
  | nop
  /-- opcode 1, format I (R60) -/
  | ldi (imm : Imm) (rd : Reg)
  /-- opcode 2, format R (R61) -/
  | add (ra rb rc : Reg)
  /-- opcode 3, format R (R62) -/
  | sub (ra rb rc : Reg)
  /-- opcode 4, format I (R64) -/
  | cmp (imm : Imm) (r : Reg)
  /-- opcode 5, format J (R65) -/
  | jmp (target : Addr)
  /-- opcode 6, format J (R66) -/
  | jeq (target : Addr)
  /-- opcode 7, format J (R67) -/
  | jgt (target : Addr)
  /-- opcode 8, format J (R68) -/
  | jlt (target : Addr)
  /-- opcode 9, format M (R71) -/
  | sto (addr : Addr) (rs : Reg)
  /-- opcode 10, format M (R72) -/
  | lod (addr : Addr) (rd : Reg)
  /-- opcode 11, format N (R76) -/
  | rsv11
  /-- opcode 12, format N (R76) -/
  | rsv12
  /-- opcode 13, format N (R76) -/
  | rsv13
  /-- opcode 14, format N (R76) -/
  | rsv14
  /-- opcode 15, format N (R74) -/
  | hlt
deriving DecidableEq, Repr

end Sys2Proof
end

