-- ==== Sys2Proof/WellFormed.lean ====
section
/-! DEFINITION. Which terms of `Instr` the encoding can express. Every field but a jump target has exactly the width of its
encoded field, so the four jump checks are all there is to check. -/

namespace Sys2Proof

/-- A jump target the 5-bit field can hold (R38, R69 (f); 90_conflicts.md C3). -/
def targetEncodable (t : Addr) : Bool := decide (t.toNat < Config.targetLimit)

def Instr.wellFormed : Instr → Bool
  | .nop => true
  | .ldi _ _ => true
  | .add _ _ _ => true
  | .sub _ _ _ => true
  | .cmp _ _ => true
  | .jmp t => targetEncodable t
  | .jeq t => targetEncodable t
  | .jgt t => targetEncodable t
  | .jlt t => targetEncodable t
  | .sto _ _ => true
  | .lod _ _ => true
  | .rsv11 => true
  | .rsv12 => true
  | .rsv13 => true
  | .rsv14 => true
  | .hlt => true

end Sys2Proof
end

