-- ==== Sys2Proof/Decode.lean ====
section
/-! DEFINITION. The Instruction Codec of 30_encoding.md (ENCODE, DECODE, field pack and unpack), the engine's decode step
with its excess-bit check (R41, R52, R79), and the encoder of whole instructions. -/

namespace Sys2Proof

open Config

/-- The reading of the instruction word that the spec takes: right-justified fields (D1), a set excess bit faults (D2), bits
31:22 ignored (D3). -/
def decodeReading : DecodeReading := ⟨.low, .fault, .ignore⟩

/-! ### ENCODE and DECODE (R33 to R36) -/

/-- DECODE (R35): opcode `w[21:18]`, operand `w[17:0]`. -/
def codecDecode (w : Word) : Opcode × Operand := (w.extractLsb' 18 4, w.extractLsb' 0 18)

/-- ENCODE (R36): ten zero bits, then the opcode, then the operand. -/
def codecEncode (op : Opcode) (opd : Operand) : Word := 0#10 ++ (op ++ opd)

/-! ### Register numbers -/

/-- The register a 2-bit index names (R10, R42). -/
def Reg.ofBits (b : BitVec 2) : Reg :=
  match b.getLsbD 1, b.getLsbD 0 with
  | false, false => .r0
  | false, true => .r1
  | true, false => .r2
  | true, true => .r3

/-- The 2-bit index of a register (R10). -/
def Reg.bits : Reg → BitVec 2
  | .r0 => 0
  | .r1 => 1
  | .r2 => 2
  | .r3 => 3

/-! ### PACK and UNPACK of the formats (R37 to R40), on right-justified fields -/

/-- PACK_I (R37). -/
def packI (imm : Imm) (r : Reg) : Operand := imm ++ r.bits

/-- PACK_J (R38): `PACK_J(target) = target`. -/
def packJ (t : Addr) : Operand := t.setWidth 18

/-- PACK_R (R39). -/
def packR (ra rb rc : Reg) : Operand := 0#12 ++ (ra.bits ++ (rb.bits ++ rc.bits))

/-- PACK_M (R40). -/
def packM (a : Addr) (r : Reg) : Operand := 0#10 ++ (a ++ r.bits)

/-- Format I's immediate, operand bits 17:2. -/
def immField (f : Operand) : Imm := f.extractLsb' 2 16

/-- Format J's target, operand bits 4:0, as an address. -/
def targetField (f : Operand) : Addr := (f.extractLsb' 0 5).setWidth 6

/-- Format M's address, operand bits 7:2. -/
def addrField (f : Operand) : Addr := f.extractLsb' 2 6

/-- Format R's A, operand bits 5:4. -/
def raField (f : Operand) : Reg := .ofBits (f.extractLsb' 4 2)

/-- Format R's B, operand bits 3:2. -/
def rbField (f : Operand) : Reg := .ofBits (f.extractLsb' 2 2)

/-- The last register of formats I, R and M, operand bits 1:0. -/
def rcField (f : Operand) : Reg := .ofBits (f.extractLsb' 0 2)

/-- Field bits of formats R, J and M: 2+2+2, 5 and 6+2 (R38 to R40). -/
def widthR : Nat := 6
def widthJ : Nat := 5
def widthM : Nat := 8

/-! ### Justification and excess bits (R41, D1, D2) -/

/-- The operand with its `k` field bits brought to the right. -/
def alignFields (j : FieldJustify) (k : Nat) (opd : Operand) : Operand :=
  match j with
  | .low => opd
  | .high => opd >>> (18 - k)

/-- The operand from its right-justified fields: what `alignFields` undoes. -/
def placeFields (j : FieldJustify) (k : Nat) (f : Operand) : Operand :=
  match j with
  | .low => f
  | .high => f <<< (18 - k)

/-- The operand bits outside the `k` field bits; not zero exactly when one of them is set. -/
def excessOf (j : FieldJustify) (k : Nat) (opd : Operand) : Operand :=
  match j with
  | .low => opd >>> k
  | .high => opd <<< k

/-- Unpack an operand of a format with excess bits: reject it when one of them is set (R41, R79), else read its fields. -/
def unpackChecked (rd : DecodeReading) (k : Nat) (opd : Operand) (mk : Operand → Instr) : Except ExecutionError Instr :=
  if rd.excess = .fault ∧ excessOf rd.justify k opd ≠ 0 then .error .addressOutOfRange
  else .ok (mk (alignFields rd.justify k opd))

/-! ### The engine's decode step (R52) -/

/-- The opcode map of R43, read on the opcode's four bits as that table's binary column writes them. -/
def decodeFields (rd : DecodeReading) (op : Opcode) (opd : Operand) : Except ExecutionError Instr :=
  match op.getLsbD 3, op.getLsbD 2, op.getLsbD 1, op.getLsbD 0 with
  | false, false, false, false => .ok .nop
  | false, false, false, true => .ok (.ldi (immField opd) (rcField opd))
  | false, false, true, false => unpackChecked rd widthR opd fun f => .add (raField f) (rbField f) (rcField f)
  | false, false, true, true => unpackChecked rd widthR opd fun f => .sub (raField f) (rbField f) (rcField f)
  | false, true, false, false => .ok (.cmp (immField opd) (rcField opd))
  | false, true, false, true => unpackChecked rd widthJ opd fun f => .jmp (targetField f)
  | false, true, true, false => unpackChecked rd widthJ opd fun f => .jeq (targetField f)
  | false, true, true, true => unpackChecked rd widthJ opd fun f => .jgt (targetField f)
  | true, false, false, false => unpackChecked rd widthJ opd fun f => .jlt (targetField f)
  | true, false, false, true => unpackChecked rd widthM opd fun f => .sto (addrField f) (rcField f)
  | true, false, true, false => unpackChecked rd widthM opd fun f => .lod (addrField f) (rcField f)
  | true, false, true, true => .ok .rsv11
  | true, true, false, false => .ok .rsv12
  | true, true, false, true => .ok .rsv13
  | true, true, true, false => .ok .rsv14
  | true, true, true, true => .ok .hlt

/-- Decode under a reading of the parameters. HIGH_BITS = unrecognized makes every word of 2^22 or more a no-op (D3). -/
def decodeWith (rd : DecodeReading) (w : Word) : Except ExecutionError Instr :=
  if rd.high = .unrecognized ∧ w.extractLsb' 22 10 ≠ 0 then .ok .nop
  else decodeFields rd (codecDecode w).1 (codecDecode w).2

/-- The engine's decode step (R52): the instruction a fetched word encodes, or the exception it raises. Total on all 2^32
words. -/
def decode (w : Word) : Except ExecutionError Instr := decodeWith decodeReading w

/-! ### The encoder -/

/-- The opcode of an instruction (R43). -/
def Instr.opcode : Instr → Opcode
  | .nop => 0
  | .ldi _ _ => 1
  | .add _ _ _ => 2
  | .sub _ _ _ => 3
  | .cmp _ _ => 4
  | .jmp _ => 5
  | .jeq _ => 6
  | .jgt _ => 7
  | .jlt _ => 8
  | .sto _ _ => 9
  | .lod _ _ => 10
  | .rsv11 => 11
  | .rsv12 => 12
  | .rsv13 => 13
  | .rsv14 => 14
  | .hlt => 15

/-- The operand of an instruction (R37 to R40); format N's is written 0 (R44). -/
def Instr.operand (j : FieldJustify) : Instr → Operand
  | .nop => 0
  | .ldi imm rd => packI imm rd
  | .add ra rb rc => placeFields j widthR (packR ra rb rc)
  | .sub ra rb rc => placeFields j widthR (packR ra rb rc)
  | .cmp imm r => packI imm r
  | .jmp t => placeFields j widthJ (packJ t)
  | .jeq t => placeFields j widthJ (packJ t)
  | .jgt t => placeFields j widthJ (packJ t)
  | .jlt t => placeFields j widthJ (packJ t)
  | .sto a rs => placeFields j widthM (packM a rs)
  | .lod a rd => placeFields j widthM (packM a rd)
  | .rsv11 => 0
  | .rsv12 => 0
  | .rsv13 => 0
  | .rsv14 => 0
  | .hlt => 0

def encodeWith (j : FieldJustify) (i : Instr) : Word := codecEncode i.opcode (i.operand j)

/-- The word of an instruction, under the reading the spec takes. -/
def encode (i : Instr) : Word := encodeWith decodeReading.justify i

/-! ### The opcode table's numbering -/

/-- The 32-bit word whose low `nbits` bits are `w`'s and whose other bits are 0: an instruction of this machine is one word,
numbered as the table numbers it (R32, R4). -/
def tableWord (nbits w : Nat) : Word := BitVec.ofNat 32 (w % 2 ^ nbits)

def decodeTableWord (nbits w : Nat) : Option Instr :=
  match decode (tableWord nbits w) with
  | .ok i => some i
  | .error _ => none

end Sys2Proof
end

