-- ==== Sys2Proof/Machine/State.lean ====
section
/-! DEFINITION. The architectural state of 10_state.md, the reasons a move can stop, and the state after CREATE. -/

namespace Sys2Proof.Machine

/-- The four values of the flag register (R12). -/
inductive Flag where
  | unset
  | gt
  | eq
  | lt
deriving DecidableEq, Repr

/-- The stored 2-bit code of a flag value: UNSET 0, GT 1, EQ 2, LT 3 (R12, D22). -/
def Flag.code : Flag → BitVec 2
  | .unset => 0
  | .gt => 1
  | .eq => 2
  | .lt => 3

/-- Why a run terminated (R55). -/
inductive EndCause where
  | byHalt
  | byEndOfMemory
deriving DecidableEq, Repr

/-- What is reported with the event that ends a run, and so what RUN answers (R56): `Terminated(cause)` or
`Faulted(error, pc, w)`. An output of the step relation, stored nowhere (R17): no field of `State` holds one. -/
inductive RunResult where
  | terminated (cause : EndCause)
  | faulted (error : ExecutionError) (pc : Addr) (w : Word)
deriving DecidableEq, Repr

/-- The register file `x[0]` to `x[3]` (R10). -/
structure RegFile where
  x0 : Word
  x1 : Word
  x2 : Word
  x3 : Word
deriving DecidableEq, Repr

/-- Memory `mem[0]` to `mem[63]` (R11): the words that are not `Config.memResetWord`, each with its address, addresses
strictly rising (`Memory.wf`). The smallest addressable unit is the word, and there is no byte address (R20, R21, R22). -/
abbrev Memory := List (Nat × Word)

/-- The state of the engine: R10 to R15, a closed list. -/
structure State where
  /-- `x[0]` to `x[3]` (R10) -/
  regs : RegFile
  /-- `mem` (R11) -/
  mem : Memory
  /-- `flag` (R12) -/
  flag : Flag
  /-- `pc` (R13) -/
  pc : Addr
  /-- `halt` (R14): 1 only between execute and epilogue of an `hlt` cycle (R57) -/
  halt : Bool
  /-- `run_active` (R15) -/
  runActive : Bool
deriving DecidableEq, Repr

/-- Why a move stops. No instruction and no step raises one: the hardware's one exception, AddressOutOfRange, is taken as a
next state (R82, log 2). -/
inductive Fault where
  /-- Raised by a host operation asked for while `run_active` = 1, where the host has no move (R50, D21): a stuck state.
  Safe: the model stops where the spec gives no behaviour. -/
  | hostMoveDuringRun
deriving DecidableEq, Repr

/-- Why a move is turned away. No instruction and no step answers one. -/
inductive Refusal where
  /-- Raised by an arm of `exec` for an instruction without a meaning; no arm does. Safe. -/
  | notModelled (mnemonic : String)
  /-- Raised by the host operation LOAD given more than 64 words, which is refused and changes nothing (R30, D12). Safe. -/
  | loadTooLong
deriving DecidableEq, Repr

/-- The state right after CREATE (R18, R90): every register and every memory word 0, `flag` UNSET, `pc` 0, `halt` 0,
`run_active` 0. -/
def State.reset : State where
  regs := ⟨0, 0, 0, 0⟩
  mem := []
  flag := .unset
  pc := 0
  halt := false
  runActive := false

end Sys2Proof.Machine
end

