-- ==== Sys2Proof/Machine/Ops.lean ====
section
/-! DEFINITION. The primitives of 00_scope.md rule R5 over registers and memory, the cycle epilogue (R53), and taking the
one exception (R82). -/

namespace Sys2Proof.Machine

/-! ### Registers (R10): one home, no hard-wired register -/

def RegFile.get (f : RegFile) : Reg → Word
  | .r0 => f.x0
  | .r1 => f.x1
  | .r2 => f.x2
  | .r3 => f.x3

def RegFile.set (f : RegFile) (r : Reg) (v : Word) : RegFile :=
  match r with
  | .r0 => { f with x0 := v }
  | .r1 => { f with x1 := v }
  | .r2 => { f with x2 := v }
  | .r3 => { f with x3 := v }

/-- `x[r]` (R5). -/
def State.readReg (s : State) (r : Reg) : Word := s.regs.get r

/-- `x[r] <- v` (R5). -/
def State.writeReg (s : State) (r : Reg) (v : Word) : State := { s with regs := s.regs.set r v }

/-! ### Memory (R11, R20, R21), keyed by word address -/

/-- The word at address `k`: the listed one, else the reset word (D10). -/
def Memory.get : Memory → Nat → Word
  | [], _ => Config.memResetWord
  | (a, w) :: m, k => if a = k then w else Memory.get m k

/-- List `v` at address `k`, or list nothing there where `v` is the reset word. -/
def Memory.consCell (k : Nat) (v : Word) (m : Memory) : Memory :=
  if v = Config.memResetWord then m else (k, v) :: m

/-- Replace the word at address `k`, keeping the canonical form. -/
def Memory.set : Memory → Nat → Word → Memory
  | [], k, v => Memory.consCell k v []
  | (a, w) :: m, k, v =>
    if k < a then Memory.consCell k v ((a, w) :: m)
    else if a = k then Memory.consCell k v m
    else (a, w) :: Memory.set m k v

/-- The canonical form from address `lo` up: addresses strictly rising and inside 0 to 63, no entry equal to the reset word. -/
def Memory.wfFrom (lo : Nat) : Memory → Bool
  | [] => true
  | (a, w) :: m => decide (lo ≤ a) && decide (a < Config.memWords) && decide (w ≠ Config.memResetWord) && wfFrom (a + 1) m

/-- The canonical form: equal memories are equal lists. -/
def Memory.wf (m : Memory) : Bool := Memory.wfFrom 0 m

/-- `MemRead(a, 1)` (R5, R21). -/
def State.memRead (s : State) (a : Addr) : Word := Memory.get s.mem a.toNat

/-- `MemWrite(a, 1, v)` (R5, R21). -/
def State.memWrite (s : State) (a : Addr) (v : Word) : State := { s with mem := Memory.set s.mem a.toNat v }

/-! ### Control state -/

/-- `flag <- f` (R5). -/
def State.setFlag (s : State) (f : Flag) : State := { s with flag := f }

/-- `halt <- 1` (R5, R74). -/
def State.setHalt (s : State) : State := { s with halt := true }

/-- `pc <- t` (R5). -/
def State.setPc (s : State) (t : Addr) : State := { s with pc := t }

/-- The normal end of a run (R53, R55): `pc`, `halt` and `run_active` to 0, nothing else, whatever the cause. -/
def State.endRun (s : State) : State := { s with pc := 0, halt := false, runActive := false }

/-! ### The phases of a cycle -/

/-- Fetch (R51): the word at `pc`. -/
def State.fetch (s : State) : Word := s.memRead s.pc

/-- An instruction's request to the epilogue (R5, R54). -/
inductive Next where
  | seq
  | abs (t : Addr)
deriving DecidableEq, Repr

/-- What the execute phase hands to the epilogue: the state it left and the request it made (R54). -/
structure Executed where
  state : State
  next : Next
deriving DecidableEq, Repr

/-- What a cycle leaves: the state, and the report it makes to the host when it ends the run (R53, R82). The report is an
output beside the state (R17, log 3). -/
structure CycleEnd where
  state : State
  report : Option RunResult
deriving DecidableEq, Repr

/-- The epilogue with its report (R53). The increment is never applied at 63. -/
def closeCycle (e : Executed) : CycleEnd :=
  if e.state.halt = true then ⟨e.state.endRun, some (.terminated .byHalt)⟩
  else
    match e.next with
    | .abs t => ⟨e.state.setPc t, none⟩
    | .seq =>
      if e.state.pc = Config.lastAddr then ⟨e.state.endRun, some (.terminated .byEndOfMemory)⟩
      else ⟨e.state.setPc (e.state.pc + 1), none⟩

/-- The state the epilogue leaves (R53). -/
def epilogue (e : Executed) : State := (closeCycle e).state

/-- An instruction that completes: its execute phase, then the epilogue. -/
def complete (e : Executed) : Host.Outcome State Fault Refusal := .next (epilogue e)

/-! ### The exception -/

/-- Taking the exception `raise e(pc, w)` (R82): no register, memory word, `flag`, `pc` or `halt` changes, `run_active`
becomes 0 and `Faulted(e, pc, w)` is reported. There is no handler and no saved-state register, and no return from it (R83):
the host's RUN starts again at the unchanged `pc`. -/
def State.takeException (s : State) (e : ExecutionError) (w : Word) : CycleEnd :=
  ⟨{ s with runActive := false }, some (.faulted e s.pc w)⟩

/-- No cycle takes place while `run_active` = 0 (R15, R50): the engine waits for the host, and nothing changes. DESIGN
CHOICE (log 4). -/
def idle (s : State) : Host.Outcome State Fault Refusal := .next s

end Sys2Proof.Machine
end

