-- ==== Sys2Proof/Machine/Operands.lean ====
section
/-! DEFINITION. The operand forms (R42, R73): zero-extended immediate, register, absolute data address, absolute jump
target. -/

namespace Sys2Proof.Machine

/-- `zext_32(imm)` (R42, D5). -/
def immValue (imm : Imm) : Word := imm.setWidth 32

/-- The effective address of `sto` and `lod` is the field itself (R73). -/
def effectiveAddr (a : Addr) : Addr := a

/-- JMP_SKIPS_INCREMENT, at the value the spec takes (D7). -/
def jmpSkipsIncrement : Bool := true

/-- Where an unconditional jump to `t` continues: at `t`, or, were the increment not skipped, at `t + 1` (D7). -/
def jumpLanding (skips : Bool) (t : Addr) : Addr := if skips then t else t + 1

end Sys2Proof.Machine
end

