-- ==== Sys2Proof/Machine/Flags.lean ====
section
/-! DEFINITION. The flag computation of `cmp` (R64) and the test the conditional jumps make of it (R66 to R68). -/

namespace Sys2Proof.Machine

open Config

/-- CMP_MODE, at the value the spec takes (D6). -/
def cmpMode : CmpMode := .exact

/-- The difference register minus immediate under a reading of "signed difference" (D6): exact; the 32-bit difference taken
as two's complement; or the register taken as two's complement first. -/
def cmpDifference (mode : CmpMode) (x : Word) (imm : Imm) : Int :=
  match mode with
  | .exact => (x.toNat : Int) - (imm.toNat : Int)
  | .wrap32 => (x - immValue imm).toInt
  | .cast32 => x.toInt - (imm.toNat : Int)

/-- GT, EQ or LT by the sign of the difference (R64). -/
def flagOfDifference (d : Int) : Flag := if 0 < d then .gt else if d = 0 then .eq else .lt

def compareFlag (mode : CmpMode) (x : Word) (imm : Imm) : Flag := flagOfDifference (cmpDifference mode x imm)

/-- A conditional jump's execute phase (R66 to R68): taken when the whole flag register equals `code`, and only then the flag
is cleared. The landing is the target for every target, 0 among them (D8). -/
def branchIf (code : Flag) (t : Addr) (s : State) : Executed :=
  if s.flag = code then ⟨s.setFlag .unset, .abs t⟩ else ⟨s, .seq⟩

end Sys2Proof.Machine
end

