-- ==== Sys2Proof/Machine/Arith.lean ====
section
/-! DEFINITION. 41_move_and_arithmetic.md: `ldi`, `add`, `sub`. -/

namespace Sys2Proof.Machine

/-- R60. -/
def executeLdi (imm : Imm) (rd : Reg) (s : State) : Executed := ⟨s.writeReg rd (immValue imm), .seq⟩

/-- `executeLdi`, then the epilogue. -/
def execLdi (imm : Imm) (rd : Reg) (s : State) : Host.Outcome State Fault Refusal := complete (executeLdi imm rd s)

/-- R61: the sum modulo 2^32. -/
def executeAdd (ra rb rc : Reg) (s : State) : Executed := ⟨s.writeReg rc (s.readReg ra + s.readReg rb), .seq⟩

/-- `executeAdd`, then the epilogue. -/
def execAdd (ra rb rc : Reg) (s : State) : Host.Outcome State Fault Refusal := complete (executeAdd ra rb rc s)

/-- R62: the difference modulo 2^32. -/
def executeSub (ra rb rc : Reg) (s : State) : Executed := ⟨s.writeReg rc (s.readReg ra - s.readReg rb), .seq⟩

/-- `executeSub`, then the epilogue. -/
def execSub (ra rb rc : Reg) (s : State) : Host.Outcome State Fault Refusal := complete (executeSub ra rb rc s)

end Sys2Proof.Machine
end

