-- ==== Sys2Proof/Machine/CompareJump.lean ====
section
/-! DEFINITION. 42_compare_and_jump.md: `cmp`, `jmp`, `jeq`, `jgt`, `jlt`. -/

namespace Sys2Proof.Machine

/-- R64. -/
def executeCmp (imm : Imm) (r : Reg) (s : State) : Executed := ⟨s.setFlag (compareFlag cmpMode (s.readReg r) imm), .seq⟩

/-- `executeCmp`, then the epilogue. -/
def execCmp (imm : Imm) (r : Reg) (s : State) : Host.Outcome State Fault Refusal := complete (executeCmp imm r s)

/-- R65. -/
def executeJmp (t : Addr) (s : State) : Executed := ⟨s, .abs (jumpLanding jmpSkipsIncrement t)⟩

/-- `executeJmp`, then the epilogue. -/
def execJmp (t : Addr) (s : State) : Host.Outcome State Fault Refusal := complete (executeJmp t s)

/-- R66. -/
def executeJeq (t : Addr) (s : State) : Executed := branchIf .eq t s

/-- `executeJeq`, then the epilogue. -/
def execJeq (t : Addr) (s : State) : Host.Outcome State Fault Refusal := complete (executeJeq t s)

/-- R67. -/
def executeJgt (t : Addr) (s : State) : Executed := branchIf .gt t s

/-- `executeJgt`, then the epilogue. -/
def execJgt (t : Addr) (s : State) : Host.Outcome State Fault Refusal := complete (executeJgt t s)

/-- R68. -/
def executeJlt (t : Addr) (s : State) : Executed := branchIf .lt t s

/-- `executeJlt`, then the epilogue. -/
def execJlt (t : Addr) (s : State) : Host.Outcome State Fault Refusal := complete (executeJlt t s)

end Sys2Proof.Machine
end

