-- ==== Sys2Proof/Machine/HaltNop.lean ====
section
/-! DEFINITION. 44_halt_and_nop.md: `hlt`, opcode 0, and the unrecognized opcodes 11 to 14. -/

namespace Sys2Proof.Machine

/-- The execute phase of `hlt` (R74): the instant at which `halt` = 1 can be seen (R57). -/
def executeHlt (s : State) : Executed := ⟨s.setHalt, .seq⟩

/-- `executeHlt`, then the epilogue of the same cycle, which ends the run (R53). -/
def execHlt (s : State) : Host.Outcome State Fault Refusal := complete (executeHlt s)

/-- R75. -/
def executeNop (s : State) : Executed := ⟨s, .seq⟩

/-- `executeNop`, then the epilogue. -/
def execNop (s : State) : Host.Outcome State Fault Refusal := complete (executeNop s)

/-- R76. -/
def executeRsv11 (s : State) : Executed := ⟨s, .seq⟩

/-- `executeRsv11`, then the epilogue. -/
def execRsv11 (s : State) : Host.Outcome State Fault Refusal := complete (executeRsv11 s)

/-- R76. -/
def executeRsv12 (s : State) : Executed := ⟨s, .seq⟩

/-- `executeRsv12`, then the epilogue. -/
def execRsv12 (s : State) : Host.Outcome State Fault Refusal := complete (executeRsv12 s)

/-- R76. -/
def executeRsv13 (s : State) : Executed := ⟨s, .seq⟩

/-- `executeRsv13`, then the epilogue. -/
def execRsv13 (s : State) : Host.Outcome State Fault Refusal := complete (executeRsv13 s)

/-- R76. -/
def executeRsv14 (s : State) : Executed := ⟨s, .seq⟩

/-- `executeRsv14`, then the epilogue. -/
def execRsv14 (s : State) : Host.Outcome State Fault Refusal := complete (executeRsv14 s)

end Sys2Proof.Machine
end

