-- ==== Sys2Proof/Machine/StoreLoad.lean ====
section
/-! DEFINITION. 43_store_and_load.md: `sto`, `lod`. -/

namespace Sys2Proof.Machine

/-- R71. -/
def executeSto (a : Addr) (rs : Reg) (s : State) : Executed := ⟨s.memWrite (effectiveAddr a) (s.readReg rs), .seq⟩

/-- `executeSto`, then the epilogue. -/
def execSto (a : Addr) (rs : Reg) (s : State) : Host.Outcome State Fault Refusal := complete (executeSto a rs s)

/-- R72. -/
def executeLod (a : Addr) (rd : Reg) (s : State) : Executed := ⟨s.writeReg rd (s.memRead (effectiveAddr a)), .seq⟩

/-- `executeLod`, then the epilogue. -/
def execLod (a : Addr) (rd : Reg) (s : State) : Host.Outcome State Fault Refusal := complete (executeLod a rd s)

end Sys2Proof.Machine
end

