-- ==== Sys2Proof/Machine/Dispatch.lean ====
section
/-! DEFINITION. The opcode map's last column (R43): each instruction to its meaning, execute phase and epilogue. -/

namespace Sys2Proof.Machine

def exec (i : Instr) (s : State) : Host.Outcome State Fault Refusal :=
  match i with
  | .nop => Sys2Proof.Machine.execNop s
  | .ldi imm rd => Sys2Proof.Machine.execLdi imm rd s
  | .add ra rb rc => Sys2Proof.Machine.execAdd ra rb rc s
  | .sub ra rb rc => Sys2Proof.Machine.execSub ra rb rc s
  | .cmp imm r => Sys2Proof.Machine.execCmp imm r s
  | .jmp t => Sys2Proof.Machine.execJmp t s
  | .jeq t => Sys2Proof.Machine.execJeq t s
  | .jgt t => Sys2Proof.Machine.execJgt t s
  | .jlt t => Sys2Proof.Machine.execJlt t s
  | .sto a rs => Sys2Proof.Machine.execSto a rs s
  | .lod a rd => Sys2Proof.Machine.execLod a rd s
  | .rsv11 => Sys2Proof.Machine.execRsv11 s
  | .rsv12 => Sys2Proof.Machine.execRsv12 s
  | .rsv13 => Sys2Proof.Machine.execRsv13 s
  | .rsv14 => Sys2Proof.Machine.execRsv14 s
  | .hlt => Sys2Proof.Machine.execHlt s

end Sys2Proof.Machine
end

