-- ==== Sys2Proof/Machine/HostOps.lean ====
section
/-! DEFINITION. The host's operations CREATE (R90), LOAD (R30), RUN (R56) and the reading of state (R16), each allowed only
while `run_active` = 0 (R15, R50), and the program image LOAD is fed from (R31). -/

namespace Sys2Proof.Machine

/-- What the host can ask for (R50). -/
inductive HostOp where
  | create
  | load (words : List Word)
  | run
  | read
deriving DecidableEq, Repr

/-- `mem[k], mem[k+1], ... <- words` (R30). -/
def Memory.load : Memory → Nat → List Word → Memory
  | m, _, [] => m
  | m, k, w :: ws => Memory.load (Memory.set m k w) (k + 1) ws

/-- CREATE (R90): the power-on reset. -/
def hostCreate (_ : State) : Host.Outcome State Fault Refusal := .next State.reset

/-- LOAD (R30): the words from address 0 on, nothing else; more than 64 words are refused. -/
def hostLoad (words : List Word) (s : State) : Host.Outcome State Fault Refusal :=
  if words.length ≤ Config.memWords then .next { s with mem := Memory.load s.mem 0 words } else .refused .loadTooLong

/-- RUN (R56): `run_active` to 1, nothing reset. What it answers when the run is over is `runAnswer`. -/
def hostRun (s : State) : Host.Outcome State Fault Refusal := .next { s with runActive := true }

/-- Reading the state changes nothing (R16). -/
def hostRead (s : State) : Host.Outcome State Fault Refusal := .next s

/-- One move of the host. While a run is active it has none (R50, D21). -/
def hostMove (op : HostOp) (s : State) : Host.Outcome State Fault Refusal :=
  if s.runActive then .fault .hostMoveDuringRun
  else
    match op with
    | .create => hostCreate s
    | .load words => hostLoad words s
    | .run => hostRun s
    | .read => hostRead s

/-! ### The program image file (R31): each word as four bytes, least significant first -/

/-- The image reader's one error (R31, R89). -/
inductive SerializeError where
  | truncatedInput
deriving DecidableEq, Repr

def wordBytes (w : Word) : List (BitVec 8) :=
  [w.extractLsb' 0 8, w.extractLsb' 8 8, w.extractLsb' 16 8, w.extractLsb' 24 8]

def wordsToBytes (ws : List Word) : List (BitVec 8) := ws.flatMap wordBytes

def bytesToWords : List (BitVec 8) → Except SerializeError (List Word)
  | [] => .ok []
  | b0 :: b1 :: b2 :: b3 :: bs =>
    match bytesToWords bs with
    | .ok ws => .ok ((b3 ++ (b2 ++ (b1 ++ b0))) :: ws)
    | .error e => .error e
  | _ => .error .truncatedInput

end Sys2Proof.Machine
end

