-- ==== Sys2Proof/Machine/Step.lean ====
section
/-! DEFINITION. One cycle of the engine (R59), and the moves of engine and host together (R50). -/

namespace Sys2Proof.Machine

/-- Fetch, decode, and then either the instruction (execute and epilogue) or the exception its word raises (R51, R52, R59). -/
def runCycle (s : State) : Host.Outcome State Fault Refusal :=
  match decode s.fetch with
  | .ok i => exec i s
  | .error e => .next (s.takeException e s.fetch).state

/-- One step of the engine: a cycle while `run_active` = 1, nothing while it is 0 (R15, R50). -/
def step (s : State) : Host.Outcome State Fault Refusal := if s.runActive then runCycle s else idle s

/-- `s` with one instruction where the next cycle fetches, and a run in progress so that there is a next cycle: what a LOAD
that covers `pc` and a RUN leave (log 5). -/
def State.withFetchWord (s : State) (nbits w : Nat) : State :=
  { s.memWrite s.pc (tableWord nbits w) with runActive := true }

/-- The moves of the two agents (R50). -/
inductive Event where
  | cycle
  | host (op : HostOp)
deriving DecidableEq, Repr

def move (e : Event) (s : State) : Host.Outcome State Fault Refusal :=
  match e with
  | .cycle => step s
  | .host op => hostMove op s

end Sys2Proof.Machine
end

