-- ==== Sys2Proof/Machine/Report.lean ====
section
/-! DEFINITION. The outputs of the step relation (R17): the report a cycle makes when it ends the run (R53, R82), and what RUN
answers (R56). No state holds them; each is computed from the state the cycle starts in. -/

namespace Sys2Proof.Machine

/-- The execute phase of each instruction (R54), by the opcode map of R43. -/
def execute (i : Instr) (s : State) : Executed :=
  match i with
  | .nop => executeNop s
  | .ldi imm rd => executeLdi imm rd s
  | .add ra rb rc => executeAdd ra rb rc s
  | .sub ra rb rc => executeSub ra rb rc s
  | .cmp imm r => executeCmp imm r s
  | .jmp t => executeJmp t s
  | .jeq t => executeJeq t s
  | .jgt t => executeJgt t s
  | .jlt t => executeJlt t s
  | .sto a rs => executeSto a rs s
  | .lod a rd => executeLod a rd s
  | .rsv11 => executeRsv11 s
  | .rsv12 => executeRsv12 s
  | .rsv13 => executeRsv13 s
  | .rsv14 => executeRsv14 s
  | .hlt => executeHlt s

/-- What `exec i s` reports to the host (R53): the cause, if the instruction ends the run. -/
def instrReport (i : Instr) (s : State) : Option RunResult := (closeCycle (execute i s)).report

/-- What `step s` reports to the host (R53, R82): the report of the cycle, none while idle. -/
def stepReport (s : State) : Option RunResult :=
  if s.runActive then
    match decode s.fetch with
    | .ok i => instrReport i s
    | .error e => (s.takeException e s.fetch).report
  else none

/-- What a run from `s` answers (R56), with the state it leaves, if it ends within so many cycles: the report of the first
cycle that makes one. None for every number of cycles is a run that never ends (R58). -/
def runAnswer : Nat → State → Option (RunResult × State)
  | 0, _ => none
  | k + 1, s =>
    match step s with
    | .next t =>
      match stepReport s with
      | some r => some (r, t)
      | none => runAnswer k t
    | .fault _ => none
    | .refused _ => none

end Sys2Proof.Machine
end

