-- ==== Sys2Proof/Safety.lean ====
section
/-! DEFINITION. The terms the claims use: the machine's invariant, what the moves reach, and names for the ways one state may
follow another. -/

namespace Sys2Proof.Machine

/-- The invariant of the states between moves: memory in canonical form (every listed address 0 to 63), and `halt` = 0 (R14,
R57). -/
def State.inv (s : State) : Bool := s.mem.wf && !s.halt

/-- The report a cycle makes fits the state `t` it leads to from `s`: a terminated run leaves `pc` = 0 (R55), a fault names the
address and the word fetched there, one the decoder rejects, and leaves `pc` and the word as they are (R82); with no report the
run is as active as before. -/
def ReportFits (s t : State) : Option RunResult → Prop
  | none => t.runActive = s.runActive
  | some (.terminated _) => t.pc = 0 ∧ t.runActive = false
  | some (.faulted e p w) =>
    p = s.pc ∧ w = s.fetch ∧ decode w = .error e ∧ t.pc = s.pc ∧ t.fetch = w ∧ t.runActive = false

/-- What engine and host reach from CREATE (R50, R91). -/
inductive Reachable : State → Prop
  | reset : Reachable State.reset
  | move {s t : State} (e : Event) : Reachable s → move e s = .next t → Reachable t

/-- Every register reads as before. -/
def SameRegs (s t : State) : Prop := ∀ r : Reg, t.readReg r = s.readReg r

/-- Every register but `rd` reads as before. -/
def SameRegsBut (rd : Reg) (s t : State) : Prop := ∀ r : Reg, r ≠ rd → t.readReg r = s.readReg r

/-- Every memory word reads as before. -/
def SameMem (s t : State) : Prop := ∀ a : Addr, t.memRead a = s.memRead a

/-- The run ended as a termination leaves it (R53, R55): `pc` 0, `halt` 0, `run_active` 0. -/
def RunEnded (t : State) : Prop := t.pc = 0 ∧ t.halt = false ∧ t.runActive = false

/-- Control goes on at `target`, `halt` and `run_active` as they were. -/
def ContinuesAt (target : Addr) (s t : State) : Prop := t.pc = target ∧ t.halt = s.halt ∧ t.runActive = s.runActive

/-- What the epilogue makes of the request SEQ (R13, R53): the next address below 63, the end of the run at 63. -/
def Advances (s t : State) : Prop :=
  (s.pc.toNat < 63 → t.pc.toNat = s.pc.toNat + 1 ∧ t.halt = s.halt ∧ t.runActive = s.runActive) ∧
  (s.pc.toNat = 63 → RunEnded t)

/-- Where an instruction transfers control to, given the flag it finds (R13, R54); none when it asks for SEQ. -/
def transferTarget (i : Instr) (f : Flag) : Option Addr :=
  match i with
  | .jmp t => some t
  | .jeq t => if f = .eq then some t else none
  | .jgt t => if f = .gt then some t else none
  | .jlt t => if f = .lt then some t else none
  | .nop => none
  | .ldi _ _ => none
  | .add _ _ _ => none
  | .sub _ _ _ => none
  | .cmp _ _ => none
  | .sto _ _ => none
  | .lod _ _ => none
  | .rsv11 => none
  | .rsv12 => none
  | .rsv13 => none
  | .rsv14 => none
  | .hlt => none

/-- The instructions that do nothing (R75, R76). -/
def isNoOp (i : Instr) : Bool :=
  decide (i = .nop ∨ i = .rsv11 ∨ i = .rsv12 ∨ i = .rsv13 ∨ i = .rsv14)

/-- The engine, with a run in progress, takes AddressOutOfRange on the word `w` wherever it fetches it (R82). -/
def RaisesAddressOutOfRange (w : Word) : Prop :=
  ∀ s : State, s.runActive = true → s.fetch = w →
    ∃ t, step s = .next t ∧ SameRegs s t ∧ SameMem s t ∧ t.flag = s.flag ∧ t.pc = s.pc ∧ t.halt = s.halt ∧
      t.runActive = false ∧ stepReport s = some (.faulted .addressOutOfRange s.pc w)

end Sys2Proof.Machine
end

