-- ==== Sys2Proof/Certificates/Slice0/Obligations.lean ====
section
/-! DEFINITION. The statements for the provers. Those that rest on a decision of the spec (D<n> of 92_eei_decisions.md) or
on a choice of this model (log <n>) say so. -/

open Sys2Proof Sys2Proof.Machine

/-! ### The codec and the decoder -/

/-- R33, R34: `opcode = w[21:18]`, `operand = w[17:0]`. -/
def Obligations.CodecReadsOpcodeAndOperandBits : Prop :=
  ∀ w : Word, (codecDecode w).1.toNat = w.toNat / 2 ^ 18 % 16 ∧ (codecDecode w).2.toNat = w.toNat % 2 ^ 18

/-- 30_encoding.md section 2: ENCODE's number, law (a), and law (b) with its exact domain. The widths of the inputs are the
spec's decision D4, the reading of bits 31:22 its decision D3, law (b) its own derivation. -/
def Obligations.CodecRoundTrips : Prop :=
  (∀ op opd, (codecEncode op opd).toNat = op.toNat * 2 ^ 18 + opd.toNat ∧ codecDecode (codecEncode op opd) = (op, opd)) ∧
  ∀ w : Word, (codecEncode (codecDecode w).1 (codecDecode w).2).toNat = w.toNat % 2 ^ 22 ∧
    (codecEncode (codecDecode w).1 (codecDecode w).2 = w ↔ w.toNat < 2 ^ 22)

/-- R37: format I is 16 bits of immediate above 2 bits of register, fills the operand and so has no excess bits. -/
def Obligations.FormatIFieldsFillTheOperand : Prop :=
  (∀ imm r, (packI imm r).toNat = imm.toNat * 4 + r.bits.toNat) ∧
  ∀ opd : Operand, ∃ (imm : Imm) (r : Reg), imm.toNat = opd.toNat / 4 ∧ r.bits.toNat = opd.toNat % 4 ∧
    packI imm r = opd ∧ decode (codecEncode 1 opd) = .ok (.ldi imm r) ∧ decode (codecEncode 4 opd) = .ok (.cmp imm r)

/-- The words of 30_encoding.md section 3 and of the instruction rules, as numbers. The positions in formats R, J and M are
the spec's decision D1. -/
def Obligations.EncodedWordsAsTheFormulasGiveThem : Prop :=
  (∀ imm r, (encode (.ldi imm r)).toNat = 0x00040000 + imm.toNat * 4 + r.bits.toNat ∧
    (encode (.cmp imm r)).toNat = 0x00100000 + imm.toNat * 4 + r.bits.toNat) ∧
  (∀ ra rb rc : Reg,
    (encode (.add ra rb rc)).toNat = 0x00080000 + ra.bits.toNat * 16 + rb.bits.toNat * 4 + rc.bits.toNat ∧
    (encode (.sub ra rb rc)).toNat = 0x000C0000 + ra.bits.toNat * 16 + rb.bits.toNat * 4 + rc.bits.toNat) ∧
  (∀ t, (encode (.jmp t)).toNat = 0x00140000 + t.toNat ∧ (encode (.jeq t)).toNat = 0x00180000 + t.toNat ∧
    (encode (.jgt t)).toNat = 0x001C0000 + t.toNat ∧ (encode (.jlt t)).toNat = 0x00200000 + t.toNat) ∧
  (∀ a r, (encode (.sto a r)).toNat = 0x00240000 + a.toNat * 4 + r.bits.toNat ∧
    (encode (.lod a r)).toNat = 0x00280000 + a.toNat * 4 + r.bits.toNat) ∧
  encode .nop = 0x00000000 ∧ encode .rsv11 = 0x002C0000 ∧ encode .rsv12 = 0x00300000 ∧ encode .rsv13 = 0x00340000 ∧
  encode .rsv14 = 0x00380000 ∧ encode .hlt = 0x003C0000

/-- The field positions of formats R, J and M as the decoder reads them, on words whose excess bits are 0. Decision D1. -/
def Obligations.DecoderReadsFieldsOfFormatsRJM : Prop :=
  (∀ opd : Operand, opd.toNat < 2 ^ 6 → ∃ ra rb rc : Reg,
    ra.bits.toNat = opd.toNat / 16 ∧ rb.bits.toNat = opd.toNat / 4 % 4 ∧ rc.bits.toNat = opd.toNat % 4 ∧
    decode (codecEncode 2 opd) = .ok (.add ra rb rc) ∧ decode (codecEncode 3 opd) = .ok (.sub ra rb rc)) ∧
  (∀ opd : Operand, opd.toNat < 2 ^ 5 → ∃ t : Addr, t.toNat = opd.toNat ∧
    decode (codecEncode 5 opd) = .ok (.jmp t) ∧ decode (codecEncode 6 opd) = .ok (.jeq t) ∧
    decode (codecEncode 7 opd) = .ok (.jgt t) ∧ decode (codecEncode 8 opd) = .ok (.jlt t)) ∧
  (∀ opd : Operand, opd.toNat < 2 ^ 8 → ∃ (a : Addr) (r : Reg), a.toNat = opd.toNat / 4 ∧ r.bits.toNat = opd.toNat % 4 ∧
    decode (codecEncode 9 opd) = .ok (.sto a r) ∧ decode (codecEncode 10 opd) = .ok (.lod a r))

/-- Words of 95_test_vectors.md, which the spec computed from its rules. -/
def Obligations.SampleWordsDecode : Prop :=
  decode 0x00040014 = .ok (.ldi 5 .r0) ∧ decode 0x00080022 = .ok (.add .r2 .r0 .r2) ∧
  decode 0x0013FFFE = .ok (.cmp 65535 .r2) ∧ decode 0x0020000A = .ok (.jlt 10) ∧
  decode 0x002400A2 = .ok (.sto 40 .r2) ∧ decode 0x003FFFFF = .ok .hlt ∧
  decode 0x00240101 = .error .addressOutOfRange

/-- Decode and encode agree on every well-formed instruction, under every reading of the three parameters the decoder
depends on (D1, D2, D3), the spec's own among them. -/
def Obligations.EveryWellFormedInstructionDecodesBack : Prop :=
  ∀ (rd : Config.DecodeReading) (i : Instr), i.wellFormed = true → decodeWith rd (encodeWith rd.justify i) = .ok i

/-- What the decoder accepts is well-formed, has the word's opcode, and, unless the format ignores its operand, encodes back
to all 22 meaningful bits of the word (D1 to D3). -/
def Obligations.DecodedInstructionEncodesBack : Prop :=
  ∀ (w : Word) (i : Instr), decode w = .ok i →
    i.wellFormed = true ∧ i.opcode = (codecDecode w).1 ∧
    (i ≠ .hlt → isNoOp i = false → (encode i).toNat = w.toNat % 2 ^ 22)

/-- A jump beyond 31 has no encoding: the word PACK_J and ENCODE give it is one the decoder rejects (C3, D2). -/
def Obligations.IllFormedInstructionHasNoWord : Prop :=
  ∀ i : Instr, i.wellFormed = false → decode (encode i) = .error .addressOutOfRange

/-- The rejected words are exactly those the table of 60_exceptions.md section 1 lists (D1, D2, D3). -/
def Obligations.DecodeRejectsExactlyExcessBits : Prop :=
  ∀ w : Word, decode w = .error .addressOutOfRange ↔
    ((w.toNat / 2 ^ 18 % 16 = 2 ∨ w.toNat / 2 ^ 18 % 16 = 3) ∧ w.toNat % 2 ^ 18 / 2 ^ 6 ≠ 0) ∨
    (5 ≤ w.toNat / 2 ^ 18 % 16 ∧ w.toNat / 2 ^ 18 % 16 ≤ 8 ∧ w.toNat % 2 ^ 18 / 2 ^ 5 ≠ 0) ∨
    ((w.toNat / 2 ^ 18 % 16 = 9 ∨ w.toNat / 2 ^ 18 % 16 = 10) ∧ w.toNat % 2 ^ 18 / 2 ^ 8 ≠ 0)

/-- R44: the six opcodes of format N decode to their instruction whatever the operand, and never fault. -/
def Obligations.FormatNOperandIsIgnored : Prop :=
  (∀ opd : Operand, decode (codecEncode 0 opd) = .ok .nop ∧ decode (codecEncode 11 opd) = .ok .rsv11 ∧
    decode (codecEncode 12 opd) = .ok .rsv12 ∧ decode (codecEncode 13 opd) = .ok .rsv13 ∧
    decode (codecEncode 14 opd) = .ok .rsv14 ∧ decode (codecEncode 15 opd) = .ok .hlt) ∧
  (codecDecode (encode .hlt)).2 = 0

/-- Word bits 31:22 do not reach the decoder (the spec's decision D3); under the reading it sets aside, they make the word a
no-op. -/
def Obligations.HighWordBitsIgnored : Prop :=
  (∀ v w : Word, v.toNat % 2 ^ 22 = w.toNat % 2 ^ 22 → decode v = decode w) ∧
  ∀ (j : Config.FieldJustify) (x : Config.ExcessBits) (w : Word), 2 ^ 22 ≤ w.toNat →
    decodeWith ⟨j, x, .unrecognized⟩ w = .ok .nop

/-! ### The instructions, each with its frame -/

/-- `ldi` (41_move_and_arithmetic.md section 1). Zero extension is the spec's decision D5, that the instruction at 63 is
executed its decision D9. -/
def Obligations.LdiLoadsZeroExtendedImmediate : Prop :=
  ∀ (imm : Imm) (rd : Reg) (s : State), s.halt = false → ∃ t, exec (.ldi imm rd) s = .next t ∧
    (t.readReg rd).toNat = imm.toNat ∧ SameRegsBut rd s t ∧ SameMem s t ∧ t.flag = s.flag ∧ Advances s t

/-- `add` (41_move_and_arithmetic.md sections 2 and 4): both sources are read before the destination is written. -/
def Obligations.AddWritesWrappedSum : Prop :=
  ∀ (ra rb rc : Reg) (s : State), s.halt = false → ∃ t, exec (.add ra rb rc) s = .next t ∧
    (t.readReg rc).toNat = ((s.readReg ra).toNat + (s.readReg rb).toNat) % 2 ^ 32 ∧
    SameRegsBut rc s t ∧ SameMem s t ∧ t.flag = s.flag ∧ Advances s t

/-- `sub` (41_move_and_arithmetic.md sections 3 and 4): A minus B, wrapping. -/
def Obligations.SubWritesWrappedDifference : Prop :=
  ∀ (ra rb rc : Reg) (s : State), s.halt = false → ∃ t, exec (.sub ra rb rc) s = .next t ∧
    ((t.readReg rc).toNat : Int) = (((s.readReg ra).toNat : Int) - ((s.readReg rb).toNat : Int)) % 2 ^ 32 ∧
    SameRegsBut rc s t ∧ SameMem s t ∧ t.flag = s.flag ∧ Advances s t

/-- 41_move_and_arithmetic.md section 4: `add` and `sub` are also correct for two's complement operands and set no flag; a
register's new value is a zero-extended immediate (the spec's decision D5), a sum, a difference or a memory word, there being
no other arithmetic; and only `cmp` compares. -/
def Obligations.AddSubAreTheOnlyArithmetic : Prop :=
  (∀ (ra rb rc : Reg) (s : State), ∃ t u, exec (.add ra rb rc) s = .next t ∧ exec (.sub ra rb rc) s = .next u ∧
    (t.readReg rc).toInt = ((s.readReg ra).toInt + (s.readReg rb).toInt).bmod (2 ^ 32) ∧
    (u.readReg rc).toInt = ((s.readReg ra).toInt - (s.readReg rb).toInt).bmod (2 ^ 32) ∧
    t.flag = s.flag ∧ u.flag = s.flag) ∧
  (∀ (i : Instr) (s t : State) (r : Reg), exec i s = .next t → t.readReg r ≠ s.readReg r →
    (∃ imm, i = .ldi imm r ∧ (t.readReg r).toNat = imm.toNat) ∨
    (∃ ra rb, i = .add ra rb r ∧ t.readReg r = s.readReg ra + s.readReg rb) ∨
    (∃ ra rb, i = .sub ra rb r ∧ t.readReg r = s.readReg ra - s.readReg rb) ∨
    ∃ a, i = .lod a r ∧ t.readReg r = s.memRead a) ∧
  ∀ (i : Instr) (s t : State), exec i s = .next t → t.flag ≠ s.flag → t.flag ≠ .unset → ∃ imm r, i = .cmp imm r

/-- `cmp` (42_compare_and_jump.md section 1): register against immediate as unsigned numbers, at every register value. The
exact difference is the spec's decision D6, the direction its canonical choice U3. -/
def Obligations.CmpSetsFlagByUnsignedComparison : Prop :=
  ∀ (imm : Imm) (r : Reg) (s : State), s.halt = false → ∃ t, exec (.cmp imm r) s = .next t ∧
    (t.flag.code = 1 ↔ (s.readReg r).toNat > imm.toNat) ∧ (t.flag.code = 2 ↔ (s.readReg r).toNat = imm.toNat) ∧
    (t.flag.code = 3 ↔ (s.readReg r).toNat < imm.toNat) ∧ t.flag.code ≠ 0 ∧
    SameRegs s t ∧ SameMem s t ∧ Advances s t

/-- The three readings of the signed difference agree below 2^31, and the values the spec tables (D6) keep them apart. -/
def Obligations.CmpReadingsAgreeBelowSignBit : Prop :=
  (∀ (x : Word) (imm : Imm), x.toNat < 2 ^ 31 →
    compareFlag .wrap32 x imm = compareFlag .exact x imm ∧ compareFlag .cast32 x imm = compareFlag .exact x imm) ∧
  ∀ (x : Word) (imm : Imm), 2 ^ 31 ≤ x.toNat →
    compareFlag .exact x imm = .gt ∧ compareFlag .cast32 x imm = .lt ∧
    (compareFlag .wrap32 x imm = .lt ↔ 2 ^ 31 + imm.toNat ≤ x.toNat)

/-- `jmp` (42_compare_and_jump.md section 2): lands on its target, no increment (the spec's decision D7). -/
def Obligations.JmpLandsOnItsTarget : Prop :=
  ∀ (target : Addr) (s : State), s.halt = false → ∃ t, exec (.jmp target) s = .next t ∧ ContinuesAt target s t ∧
    SameRegs s t ∧ SameMem s t ∧ t.flag = s.flag

/-- `jeq` (42_compare_and_jump.md section 3): taken exactly when `flag` = 2, and only then it clears the flag. The landing
on target 0 is the spec's decision D8. -/
def Obligations.JeqTakenExactlyOnEqual : Prop :=
  ∀ (target : Addr) (s : State), s.halt = false → ∃ t, exec (.jeq target) s = .next t ∧ SameRegs s t ∧ SameMem s t ∧
    (s.flag.code = 2 → ContinuesAt target s t ∧ t.flag.code = 0) ∧ (s.flag.code ≠ 2 → Advances s t ∧ t.flag = s.flag)

/-- `jgt` (42_compare_and_jump.md section 3): taken exactly when `flag` = 1. -/
def Obligations.JgtTakenExactlyOnGreater : Prop :=
  ∀ (target : Addr) (s : State), s.halt = false → ∃ t, exec (.jgt target) s = .next t ∧ SameRegs s t ∧ SameMem s t ∧
    (s.flag.code = 1 → ContinuesAt target s t ∧ t.flag.code = 0) ∧ (s.flag.code ≠ 1 → Advances s t ∧ t.flag = s.flag)

/-- `jlt` (42_compare_and_jump.md section 3): taken exactly when `flag` = 3. -/
def Obligations.JltTakenExactlyOnLess : Prop :=
  ∀ (target : Addr) (s : State), s.halt = false → ∃ t, exec (.jlt target) s = .next t ∧ SameRegs s t ∧ SameMem s t ∧
    (s.flag.code = 3 → ContinuesAt target s t ∧ t.flag.code = 0) ∧ (s.flag.code ≠ 3 → Advances s t ∧ t.flag = s.flag)

/-- 42_compare_and_jump.md section 4, flag consumption: after any `cmp` exactly one of `jeq`, `jgt`, `jlt` is taken, and the
jump that was taken leaves a flag no conditional jump takes. -/
def Obligations.OneConditionalJumpTakenAfterCmp : Prop :=
  ∀ (imm : Imm) (r : Reg) (a b c : Addr) (s t : State), exec (.cmp imm r) s = .next t →
    (([transferTarget (.jeq a) t.flag, transferTarget (.jgt b) t.flag, transferTarget (.jlt c) t.flag].filter
      Option.isSome).length = 1) ∧
    ∀ i ∈ [Instr.jeq a, .jgt b, .jlt c], ∀ x u, transferTarget i t.flag = some x → exec i t = .next u →
      transferTarget (.jeq a) u.flag = none ∧ transferTarget (.jgt b) u.flag = none ∧ transferTarget (.jlt c) u.flag = none

/-- `sto` (43_store_and_load.md sections 1 and 3): the word at the address field, the effective address, and no other. -/
def Obligations.StoReplacesOneWord : Prop :=
  ∀ (a : Addr) (rs : Reg) (s : State), s.mem.wf = true → s.halt = false → ∃ t, exec (.sto a rs) s = .next t ∧
    t.memRead (effectiveAddr a) = s.readReg rs ∧ effectiveAddr a = a ∧
    (∀ b : Addr, b ≠ effectiveAddr a → t.memRead b = s.memRead b) ∧
    SameRegs s t ∧ t.flag = s.flag ∧ Advances s t

/-- `lod` (43_store_and_load.md sections 2 and 3): all 32 bits. -/
def Obligations.LodReadsOneWord : Prop :=
  ∀ (a : Addr) (rd : Reg) (s : State), s.halt = false → ∃ t, exec (.lod a rd) s = .next t ∧
    t.readReg rd = s.memRead a ∧ SameRegsBut rd s t ∧ SameMem s t ∧ t.flag = s.flag ∧ Advances s t

/-- `hlt` (44_halt_and_nop.md section 1), whatever its operand: the run ends by halt, at every address, 63 among them; nothing but
`pc` and the control bits changes, and the cause is reported. -/
def Obligations.HltEndsTheRun : Prop :=
  (∀ w : Word, w.extractLsb' 18 4 = 15#4 → decode w = .ok .hlt) ∧
  ∀ s : State, ∃ t, exec .hlt s = .next t ∧ RunEnded t ∧ SameRegs s t ∧ SameMem s t ∧ t.flag = s.flag ∧
    instrReport .hlt s = some (.terminated .byHalt)

/-- R75: opcode 0, whatever its operand, changes nothing but `pc`, by the epilogue. -/
def Obligations.NopOnlyAdvances : Prop :=
  (∀ w : Word, w.extractLsb' 18 4 = 0#4 → decode w = .ok .nop) ∧
  ∀ s : State, s.halt = false → ∃ t, exec .nop s = .next t ∧ SameRegs s t ∧ SameMem s t ∧ t.flag = s.flag ∧ Advances s t

/-- R76: opcodes 11 to 14, whatever their operand, change nothing but `pc`, identically to opcode 0. -/
def Obligations.UnrecognizedOpcodesOnlyAdvance : Prop :=
  (∀ w : Word, (w.extractLsb' 18 4 = 11#4 → decode w = .ok .rsv11) ∧ (w.extractLsb' 18 4 = 12#4 → decode w = .ok .rsv12) ∧
    (w.extractLsb' 18 4 = 13#4 → decode w = .ok .rsv13) ∧ (w.extractLsb' 18 4 = 14#4 → decode w = .ok .rsv14)) ∧
  ∀ s : State, s.halt = false → ∀ i ∈ [Instr.rsv11, .rsv12, .rsv13, .rsv14], ∃ t, exec i s = .next t ∧
    SameRegs s t ∧ SameMem s t ∧ t.flag = s.flag ∧ Advances s t ∧ exec .nop s = .next t

/-! ### The cycle -/

/-- A step in a run is the instruction its word decodes to; nothing is added around it, `pc` included (40_execution_cycle.md
sections 2 and 4). -/
def Obligations.StepRunsTheDecodedInstruction : Prop :=
  ∀ (s : State) (i : Instr), s.runActive = true → decode (s.memRead s.pc) = .ok i → i.wellFormed = true ∧ step s = exec i s

/-- The engine acts only during a run (10_state.md section 6); that an idle step answers the same state is log 4. -/
def Obligations.IdleEngineChangesNothing : Prop := ∀ s : State, s.runActive = false → step s = .next s ∧ stepReport s = none

/-- The instruction `withFetchWord` places runs in the very next step (log 5). -/
def Obligations.PlacedWordRunsNext : Prop :=
  ∀ (s : State) (w : Nat) (i : Instr), s.mem.wf = true → w < 2 ^ 32 → decode (BitVec.ofNat 32 w) = .ok i →
    step (s.withFetchWord 32 w) = exec i (s.withFetchWord 32 w) ∧ decodeTableWord 32 w = some i ∧
    ∀ a : Addr, a ≠ s.pc → (s.withFetchWord 32 w).memRead a = s.memRead a

/-- 60_exceptions.md section 4: taking AddressOutOfRange changes no register, memory word, flag, `pc` or `halt`, ends the run
and reports `pc` and the word (D2, D14, D15). That the fault is a next state is log 2. -/
def Obligations.FaultEndsRunAndKeepsState : Prop :=
  ∀ w : Word, decode w = .error .addressOutOfRange → RaisesAddressOutOfRange w

/-- 60_exceptions.md section 1, over whole words: every opcode with excess bits faults on each one set, a conditional jump
whether or not it would be taken (D1, D2, D3). What the fault leaves is section 4's (D14, D15), with log 2 as in
FaultEndsRunAndKeepsState. -/
def Obligations.ExcessBitFaultsBeforeExecuting : Prop :=
  ∀ (w : Word) (k : Nat), k < 18 → w.getLsbD k = true →
    ((w.extractLsb' 18 4 = 2#4 ∨ w.extractLsb' 18 4 = 3#4) ∧ 6 ≤ k ∨
      (w.extractLsb' 18 4 = 5#4 ∨ w.extractLsb' 18 4 = 6#4 ∨ w.extractLsb' 18 4 = 7#4 ∨ w.extractLsb' 18 4 = 8#4) ∧ 5 ≤ k ∨
      (w.extractLsb' 18 4 = 9#4 ∨ w.extractLsb' 18 4 = 10#4) ∧ 8 ≤ k) →
    RaisesAddressOutOfRange w

/-- No state stops the engine: it has one exception, and that one is taken (60_exceptions.md sections 1, 3 and
4). That the fault is a next state is log 2, that an idle step answers the same state is log 4. -/
def Obligations.EngineNeverStops : Prop := ∀ s : State, ∃ t, step s = .next t

/-- The next-pc table of 10_state.md section 4, over all instructions and addresses (D7, D8, D9), and which of its rows
report the end of the run. -/
def Obligations.NextPcFollowsTheTable : Prop :=
  ∀ (i : Instr) (s : State), s.halt = false → ∃ t, exec i s = .next t ∧ t.halt = false ∧
    (i = .hlt → t.pc = 0 ∧ t.runActive = false ∧ instrReport i s = some (.terminated .byHalt)) ∧
    (∀ x, transferTarget i s.flag = some x → t.pc = x ∧ t.runActive = s.runActive ∧ instrReport i s = none) ∧
    (i ≠ .hlt → transferTarget i s.flag = none → s.pc.toNat < 63 →
      t.pc.toNat = s.pc.toNat + 1 ∧ t.runActive = s.runActive ∧ instrReport i s = none) ∧
    (i ≠ .hlt → transferTarget i s.flag = none → s.pc.toNat = 63 →
      t.pc = 0 ∧ t.runActive = false ∧ instrReport i s = some (.terminated .byEndOfMemory))

/-- A run ends in three ways only, each with its report (40_execution_cycle.md section 3, 42_compare_and_jump.md section 4;
the fault as a next state is log 2). -/
def Obligations.RunEndsInThreeWaysOnly : Prop :=
  ∀ s t : State, s.runActive = true → s.halt = false → step s = .next t → t.runActive = false →
    (∃ e, decode s.fetch = .error e ∧ t.pc = s.pc ∧ stepReport s = some (.faulted e s.pc s.fetch)) ∨
    (decode s.fetch = .ok .hlt ∧ t.pc = 0 ∧ t.halt = false ∧ stepReport s = some (.terminated .byHalt)) ∨
    (∃ i, decode s.fetch = .ok i ∧ i ≠ .hlt ∧ transferTarget i s.flag = none ∧ s.pc.toNat = 63 ∧ t.pc = 0 ∧
      t.halt = false ∧ stepReport s = some (.terminated .byEndOfMemory))

/-- The two terminations leave the same state and differ only in the cause they report, which is stored nowhere
(40_execution_cycle.md section 3, 10_state.md section 8): `hlt` and a no-op at address 63. -/
def Obligations.TerminationsLeaveTheSameState : Prop :=
  ∀ s : State, s.halt = false → s.pc.toNat = 63 → ∃ t, exec .hlt s = .next t ∧ exec .nop s = .next t ∧
    instrReport .hlt s = some (.terminated .byHalt) ∧ instrReport .nop s = some (.terminated .byEndOfMemory)

/-- 40_execution_cycle.md section 3, visibility of `halt`: 1 after the execute phase of `hlt`, 0 after every epilogue. -/
def Obligations.HaltSeenOnlyBeforeTheEpilogue : Prop :=
  (∀ s : State, (executeHlt s).state.halt = true ∧ (executeHlt s).state.pc = s.pc ∧
    exec .hlt s = .next (epilogue (executeHlt s))) ∧
  ∀ e : Executed, (epilogue e).halt = false

/-- 70_reset_and_hazards.md section 3, jump reach: in a run, 32 to 63 are entered only from 31, and left only to a jump
target 0 to 31 or by the end of the run; the run never goes from 63 to 0 by sequence. -/
def Obligations.UpperHalfEnteredOnlyFromBelow : Prop :=
  ∀ s t : State, s.halt = false → s.runActive = true → step s = .next t → t.runActive = true →
    (s.pc.toNat < 32 → 32 ≤ t.pc.toNat → s.pc.toNat = 31 ∧ t.pc.toNat = 32) ∧
    (32 ≤ s.pc.toNat → t.pc.toNat = s.pc.toNat + 1 ∨
      t.pc.toNat < 32 ∧ ∃ i x, decode s.fetch = .ok i ∧ transferTarget i s.flag = some x ∧ t.pc = x)

/-- 40_execution_cycle.md section 2, execute: an instruction writes one register at most, or one memory word at most, or the
flag, never two of these. -/
def Obligations.OneKindOfWritePerInstruction : Prop :=
  ∀ (i : Instr) (s t : State), exec i s = .next t →
    (∀ r q, t.readReg r ≠ s.readReg r → t.readReg q ≠ s.readReg q → r = q) ∧
    (∀ a b, t.memRead a ≠ s.memRead a → t.memRead b ≠ s.memRead b → a = b) ∧
    (∀ r, t.readReg r ≠ s.readReg r → SameMem s t ∧ t.flag = s.flag ∧ transferTarget i s.flag = none) ∧
    (∀ a, t.memRead a ≠ s.memRead a → SameRegs s t ∧ t.flag = s.flag ∧ transferTarget i s.flag = none)

/-- 10_state.md section 1: registers are written by `ldi`, `add`, `sub` and `lod` and by no other move of the engine or the
host but CREATE. -/
def Obligations.OnlyFourInstructionsWriteRegisters : Prop :=
  ∀ (e : Event) (s t : State) (r : Reg), move e s = .next t → t.readReg r ≠ s.readReg r →
    e = .host .create ∨
    (e = .cycle ∧ s.runActive = true ∧
      ((∃ imm, decode s.fetch = .ok (.ldi imm r)) ∨ (∃ ra rb, decode s.fetch = .ok (.add ra rb r)) ∨
        (∃ ra rb, decode s.fetch = .ok (.sub ra rb r)) ∨ ∃ a, decode s.fetch = .ok (.lod a r)))

/-- 10_state.md section 2: memory is written by `sto`, by the host's LOAD (and CREATE), and by nothing else. -/
def Obligations.OnlyStoAndLoadWriteMemory : Prop :=
  ∀ (e : Event) (s t : State) (a : Addr), move e s = .next t → t.memRead a ≠ s.memRead a →
    e = .host .create ∨ (∃ ws, e = .host (.load ws) ∧ a.toNat < ws.length) ∨
    (e = .cycle ∧ s.runActive = true ∧ ∃ rs, decode s.fetch = .ok (.sto a rs))

/-- The event table of 10_state.md section 3: only `cmp` sets the flag, only a taken conditional jump clears it, and no other
move of engine or host changes it (CREATE apart). -/
def Obligations.FlagChangesOnlyAsTabled : Prop :=
  ∀ (e : Event) (s t : State), move e s = .next t → t.flag ≠ s.flag →
    e = .host .create ∨
    (e = .cycle ∧ s.runActive = true ∧
      ((∃ imm r, decode s.fetch = .ok (.cmp imm r) ∧ t.flag ≠ .unset) ∨
        (∃ i x, decode s.fetch = .ok i ∧ (i = .jeq x ∨ i = .jgt x ∨ i = .jlt x) ∧
          transferTarget i s.flag = some x ∧ t.flag = .unset)))

/-- 70_reset_and_hazards.md section 3: the flag survives the end of a run, LOAD and RUN, and while it is UNSET a step that is
not `cmp` leaves it so and takes no conditional jump. -/
def Obligations.FlagOutlivesTheRun : Prop :=
  (∀ s t : State, s.runActive = true → s.halt = false → step s = .next t → t.runActive = false →
    (∀ imm r, decode s.fetch ≠ .ok (.cmp imm r)) → t.flag = s.flag) ∧
  (∀ (ws : List Word) (s t : State), hostMove (.load ws) s = .next t ∨ hostMove .run s = .next t → t.flag = s.flag) ∧
  ∀ (i : Instr) (s t : State), s.halt = false → s.flag = .unset → exec i s = .next t →
    (∀ imm r, i ≠ .cmp imm r) → t.flag = .unset ∧ ((∃ x, i = .jeq x ∨ i = .jgt x ∨ i = .jlt x) → Advances s t)

/-! ### Memory -/

/-- A read returns the value of the most recent write (20_memory.md section 7): `sto` then `lod` at one address moves a
register whole, whatever the registers. -/
def Obligations.StoreThenLoadReturnsTheWord : Prop :=
  ∀ (a b : Addr) (rs rd : Reg) (s t u : State), s.mem.wf = true → exec (.sto a rs) s = .next t → exec (.lod b rd) t = .next u →
    u.readReg rd = if b = a then s.readReg rs else s.memRead b

/-- Self-modifying code (20_memory.md section 9): a store is seen by the very next fetch, and does not change the instruction
in progress. -/
def Obligations.StoreSeenByTheNextFetch : Prop :=
  ∀ (s : State) (a : Addr) (rs : Reg), s.mem.wf = true → s.runActive = true → s.halt = false → s.pc.toNat < 63 →
    decode s.fetch = .ok (.sto a rs) →
    ∃ t, step s = .next t ∧ t.pc.toNat = s.pc.toNat + 1 ∧
      (a.toNat = s.pc.toNat + 1 → t.fetch = s.readReg rs) ∧
      (a.toNat ≠ s.pc.toNat + 1 → t.fetch = s.memRead t.pc) ∧
      (a = s.pc → t.memRead s.pc = s.readReg rs)

/-- Memories in canonical form that read alike are the same data (log 1). -/
def Obligations.MemoriesThatReadAlikeAreEqual : Prop :=
  ∀ m n : Memory, m.wf = true → n.wf = true → (∀ a : Addr, Memory.get m a.toNat = Memory.get n a.toNat) → m = n

/-! ### Reset and the host -/

/-- CREATE (70_reset_and_hazards.md section 1): memory by the spec's decision D10, `pc` and `halt` by D11. -/
def Obligations.CreateLeavesTheTabledValues : Prop :=
  ∀ s : State, s.runActive = false → ∃ t, hostMove .create s = .next t ∧ (∀ r, t.readReg r = 0) ∧ (∀ a, t.memRead a = 0) ∧
    t.flag.code = 0 ∧ t.pc = 0 ∧ t.halt = false ∧ t.runActive = false ∧ t = State.reset

/-- LOAD (20_memory.md section 11, the spec's decision D12): words 0 to n-1 whole, the rest and everything else untouched;
more than 64 words refused. -/
def Obligations.LoadReplacesTheFirstWords : Prop :=
  ∀ (ws : List Word) (s : State), s.mem.wf = true → s.runActive = false →
    (ws.length ≤ 64 → ∃ t, hostMove (.load ws) s = .next t ∧
      (∀ (a : Addr) (h : a.toNat < ws.length), t.memRead a = ws[a.toNat]) ∧
      (∀ a : Addr, ws.length ≤ a.toNat → t.memRead a = s.memRead a) ∧ { t with mem := s.mem } = s) ∧
    (64 < ws.length → hostMove (.load ws) s = .refused .loadTooLong)

/-- RUN (40_execution_cycle.md section 3, the spec's decision D13): from every idle state it sets `run_active` and resets
nothing, and the next step is a cycle at the current `pc`: the instruction there, or, at a word the decoder rejects, the fault
that leads straight back to the idle state (D14; as a next state, log 2). -/
def Obligations.RunStartsAtTheCurrentPc : Prop :=
  ∀ s : State, s.runActive = false → ∃ t, hostMove .run s = .next t ∧ t = { s with runActive := true } ∧
    (∀ i, decode s.fetch = .ok i → step t = exec i t) ∧
    ∀ e, decode s.fetch = .error e → step t = .next s ∧ stepReport t = some (.faulted e s.pc s.fetch)

/-- While a run is active the host has no move, reading included (the spec's decision D21; the form of the stop is log 6);
while none is, reading changes nothing. -/
def Obligations.HostHasNoMoveDuringRun : Prop :=
  ∀ (op : HostOp) (s : State), (s.runActive = true → hostMove op s = .fault .hostMoveDuringRun) ∧
    (s.runActive = false → hostMove .read s = .next s)

/-- After a fault (60_exceptions.md section 5, the spec's decision D14): RUN with nothing repaired faults again at the same
instruction; RUN after a LOAD that covers it resumes at the unchanged `pc`. The fault as a next state is log 2. -/
def Obligations.FaultRepeatsUntilRepaired : Prop :=
  (∀ (s t u : State) (e : ExecutionError), s.runActive = true → decode s.fetch = .error e → step s = .next t →
    hostMove .run t = .next u → step u = .next t ∧ stepReport u = stepReport s) ∧
  ∀ (s t : State) (e : ExecutionError) (ws : List Word) (i : Instr) (h : s.pc.toNat < ws.length),
    s.mem.wf = true → s.runActive = true → decode s.fetch = .error e → step s = .next t → ws.length ≤ 64 →
    decode ws[s.pc.toNat] = .ok i →
    ∃ u v, hostMove (.load ws) t = .next u ∧ hostMove .run u = .next v ∧ v.pc = s.pc ∧ step v = exec i v

/-- R31: four bytes a word, least significant first; a byte count that is no multiple of 4 is an error; reading undoes
writing. -/
def Obligations.ProgramImageRoundTrips : Prop :=
  (∀ ws : List Word, bytesToWords (wordsToBytes ws) = .ok ws) ∧
  (∀ bs : List (BitVec 8), (∃ ws, bytesToWords bs = .ok ws ∧ wordsToBytes ws = bs) ↔ bs.length % 4 = 0) ∧
  (∀ bs : List (BitVec 8), bytesToWords bs = .error .truncatedInput ↔ bs.length % 4 ≠ 0) ∧
  ∀ (w : Word) (k : Fin 4), ((wordsToBytes [w])[k.val]?).map BitVec.toNat = some (w.toNat / 2 ^ (8 * k.val) % 256)

/-! ### The invariant and whole runs -/

/-- The state after CREATE meets the invariant: memory canonical (log 1) and `halt` = 0. Which values CREATE leaves is
CreateLeavesTheTabledValues. -/
def Obligations.ResetMeetsTheInvariant : Prop := State.reset.inv = true

/-- Every move of engine and host keeps the invariant: memory canonical and inside 0 to 63, `halt` = 0 between cycles
(log 1; the idle step is log 4). What a report says of the state it comes with is ReportMadeExactlyWhenTheRunEnds. -/
def Obligations.EveryMoveKeepsTheInvariant : Prop :=
  ∀ (e : Event) (s t : State), s.inv = true → move e s = .next t → t.inv = true

/-- Whatever the host loads and runs after CREATE, and however often, the states between moves meet the invariant; in
particular `halt` = 0 at the start of every cycle (10_state.md section 5; log 1). -/
def Obligations.ReachableStatesMeetTheInvariant : Prop :=
  ∀ s : State, Reachable s → s.inv = true ∧ s.halt = false ∧ s.mem.wf = true

/-- 70_reset_and_hazards.md section 3, the end-of-memory boundary: from any `pc`, if every word from there to address 63 is a
no-op, the run is still active and unanswered after fewer than 64 - pc cycles, and after exactly that many it has ended and
RUN answers end of memory (D9). -/
def Obligations.NoOpsRunOffTheEnd : Prop :=
  ∀ s : State, s.runActive = true → s.halt = false →
    (∀ a : Addr, s.pc.toNat ≤ a.toNat → ∃ i, decode (s.memRead a) = .ok i ∧ isNoOp i = true) →
    (∀ k : Nat, k < 64 - s.pc.toNat →
      Host.Core.run Sys2Proof.core k s = .next { s with pc := BitVec.ofNat 6 (s.pc.toNat + k) } ∧ runAnswer k s = none) ∧
    Host.Core.run Sys2Proof.core (64 - s.pc.toNat) s = .next { s with pc := 0, runActive := false } ∧
    runAnswer (64 - s.pc.toNat) s = some (.terminated .byEndOfMemory, { s with pc := 0, runActive := false })

/-- 40_execution_cycle.md section 3, non-termination: a jump to its own address is still running after any number of cycles,
and RUN never answers. -/
def Obligations.JumpToItselfNeverEnds : Prop :=
  ∀ s : State, s.runActive = true → s.halt = false → decode s.fetch = .ok (.jmp s.pc) →
    ∀ k : Nat, Host.Core.run Sys2Proof.core k s = .next s ∧ runAnswer k s = none

/-- A step makes a report exactly when it ends a run, and the report fits the state it leads to (40_execution_cycle.md
section 3, 60_exceptions.md section 4; the fault as a next state is log 2). The report is read from the state the cycle
starts in, since no state holds it (10_state.md section 8, log 3). -/
def Obligations.ReportMadeExactlyWhenTheRunEnds : Prop :=
  ∀ s t : State, s.halt = false → step s = .next t →
    ReportFits s t (stepReport s) ∧ (stepReport s ≠ none ↔ s.runActive = true ∧ t.runActive = false)

/-- What RUN answers (40_execution_cycle.md section 3): within `k` cycles it answers `r` and leaves `t` exactly when some
cycle `j` of this run, below `k`, reports `r` and leads to `t`, and no earlier cycle of the run reported. The answer is the
same however many more cycles are allowed, and the run is over. -/
def Obligations.RunAnswersOnceWithTheLastReport : Prop :=
  ∀ (k : Nat) (s t : State) (r : RunResult), s.inv = true →
    (runAnswer k s = some (r, t) ↔
      ∃ j u, j < k ∧ Host.Core.run Sys2Proof.core j s = .next u ∧
        (∀ i, i < j → ∃ v, Host.Core.run Sys2Proof.core i s = .next v ∧ stepReport v = none) ∧
        step u = .next t ∧ stepReport u = some r ∧ ReportFits u t (some r)) ∧
    (runAnswer k s = some (r, t) → (∀ n, runAnswer (k + n) s = some (r, t)) ∧ t.inv = true ∧ t.runActive = false)
end

