-- ==== Sys2Proof/Laws/State.lean ====
section
/-! SUPPORT. One lemma per field per update of the state, and reads of registers after an update. -/

namespace Sys2Proof.Machine

variable (s : State)

section WriteReg
variable (r : Reg) (v : Word)
@[simp] theorem State.writeReg_mem : (s.writeReg r v).mem = s.mem := rfl
@[simp] theorem State.writeReg_flag : (s.writeReg r v).flag = s.flag := rfl
@[simp] theorem State.writeReg_pc : (s.writeReg r v).pc = s.pc := rfl
@[simp] theorem State.writeReg_halt : (s.writeReg r v).halt = s.halt := rfl
@[simp] theorem State.writeReg_runActive : (s.writeReg r v).runActive = s.runActive := rfl
@[simp] theorem State.writeReg_memRead (a : Addr) : (s.writeReg r v).memRead a = s.memRead a := rfl
@[simp] theorem State.writeReg_readReg_self : (s.writeReg r v).readReg r = v := by cases r <;> rfl
@[simp] theorem State.writeReg_readReg_other {q : Reg} (h : q ≠ r) : (s.writeReg r v).readReg q = s.readReg q := by
  cases r <;> cases q <;> first | rfl | exact absurd rfl h
end WriteReg

section MemWrite
variable (a : Addr) (v : Word)
@[simp] theorem State.memWrite_regs : (s.memWrite a v).regs = s.regs := rfl
@[simp] theorem State.memWrite_mem : (s.memWrite a v).mem = Memory.set s.mem a.toNat v := rfl
@[simp] theorem State.memWrite_flag : (s.memWrite a v).flag = s.flag := rfl
@[simp] theorem State.memWrite_pc : (s.memWrite a v).pc = s.pc := rfl
@[simp] theorem State.memWrite_halt : (s.memWrite a v).halt = s.halt := rfl
@[simp] theorem State.memWrite_runActive : (s.memWrite a v).runActive = s.runActive := rfl
@[simp] theorem State.memWrite_readReg (r : Reg) : (s.memWrite a v).readReg r = s.readReg r := rfl
end MemWrite

section SetFlag
variable (f : Flag)
@[simp] theorem State.setFlag_regs : (s.setFlag f).regs = s.regs := rfl
@[simp] theorem State.setFlag_mem : (s.setFlag f).mem = s.mem := rfl
@[simp] theorem State.setFlag_flag : (s.setFlag f).flag = f := rfl
@[simp] theorem State.setFlag_pc : (s.setFlag f).pc = s.pc := rfl
@[simp] theorem State.setFlag_halt : (s.setFlag f).halt = s.halt := rfl
@[simp] theorem State.setFlag_runActive : (s.setFlag f).runActive = s.runActive := rfl
@[simp] theorem State.setFlag_readReg (r : Reg) : (s.setFlag f).readReg r = s.readReg r := rfl
@[simp] theorem State.setFlag_memRead (a : Addr) : (s.setFlag f).memRead a = s.memRead a := rfl
end SetFlag

@[simp] theorem State.setHalt_regs : s.setHalt.regs = s.regs := rfl
@[simp] theorem State.setHalt_mem : s.setHalt.mem = s.mem := rfl
@[simp] theorem State.setHalt_flag : s.setHalt.flag = s.flag := rfl
@[simp] theorem State.setHalt_pc : s.setHalt.pc = s.pc := rfl
@[simp] theorem State.setHalt_halt : s.setHalt.halt = true := rfl
@[simp] theorem State.setHalt_runActive : s.setHalt.runActive = s.runActive := rfl
@[simp] theorem State.setHalt_readReg (r : Reg) : s.setHalt.readReg r = s.readReg r := rfl
@[simp] theorem State.setHalt_memRead (a : Addr) : s.setHalt.memRead a = s.memRead a := rfl

section SetPc
variable (t : Addr)
@[simp] theorem State.setPc_regs : (s.setPc t).regs = s.regs := rfl
@[simp] theorem State.setPc_mem : (s.setPc t).mem = s.mem := rfl
@[simp] theorem State.setPc_flag : (s.setPc t).flag = s.flag := rfl
@[simp] theorem State.setPc_pc : (s.setPc t).pc = t := rfl
@[simp] theorem State.setPc_halt : (s.setPc t).halt = s.halt := rfl
@[simp] theorem State.setPc_runActive : (s.setPc t).runActive = s.runActive := rfl
@[simp] theorem State.setPc_readReg (r : Reg) : (s.setPc t).readReg r = s.readReg r := rfl
@[simp] theorem State.setPc_memRead (a : Addr) : (s.setPc t).memRead a = s.memRead a := rfl
end SetPc

@[simp] theorem State.endRun_regs : s.endRun.regs = s.regs := rfl
@[simp] theorem State.endRun_mem : s.endRun.mem = s.mem := rfl
@[simp] theorem State.endRun_flag : s.endRun.flag = s.flag := rfl
@[simp] theorem State.endRun_pc : s.endRun.pc = 0 := rfl
@[simp] theorem State.endRun_halt : s.endRun.halt = false := rfl
@[simp] theorem State.endRun_runActive : s.endRun.runActive = false := rfl
@[simp] theorem State.endRun_readReg (r : Reg) : s.endRun.readReg r = s.readReg r := rfl
@[simp] theorem State.endRun_memRead (a : Addr) : s.endRun.memRead a = s.memRead a := rfl

section TakeException
variable (e : ExecutionError) (w : Word)
@[simp] theorem State.takeException_regs : (s.takeException e w).state.regs = s.regs := rfl
@[simp] theorem State.takeException_mem : (s.takeException e w).state.mem = s.mem := rfl
@[simp] theorem State.takeException_flag : (s.takeException e w).state.flag = s.flag := rfl
@[simp] theorem State.takeException_pc : (s.takeException e w).state.pc = s.pc := rfl
@[simp] theorem State.takeException_halt : (s.takeException e w).state.halt = s.halt := rfl
@[simp] theorem State.takeException_runActive : (s.takeException e w).state.runActive = false := rfl
@[simp] theorem State.takeException_report : (s.takeException e w).report = some (.faulted e s.pc w) := rfl
@[simp] theorem State.takeException_readReg (r : Reg) : (s.takeException e w).state.readReg r = s.readReg r := rfl
@[simp] theorem State.takeException_memRead (a : Addr) : (s.takeException e w).state.memRead a = s.memRead a := rfl
end TakeException

end Sys2Proof.Machine
end

