-- ==== Sys2Proof/Laws/Codec.lean ====
section
/-! SUPPORT. One lemma per function of the codec: the opcode map row by row, the numbers PACK gives and the fields UNPACK
reads, and what the excess-bit check does. -/

namespace Sys2Proof

/-! ### The opcode map, row by row (R43) -/

section Rows
variable (rd : Config.DecodeReading) (opd : Operand)
@[simp] theorem decodeFields_0 : decodeFields rd 0#4 opd = .ok .nop := rfl
@[simp] theorem decodeFields_1 : decodeFields rd 1#4 opd = .ok (.ldi (immField opd) (rcField opd)) := rfl
@[simp] theorem decodeFields_2 : decodeFields rd 2#4 opd =
    unpackChecked rd widthR opd (fun f => .add (raField f) (rbField f) (rcField f)) := rfl
@[simp] theorem decodeFields_3 : decodeFields rd 3#4 opd =
    unpackChecked rd widthR opd (fun f => .sub (raField f) (rbField f) (rcField f)) := rfl
@[simp] theorem decodeFields_4 : decodeFields rd 4#4 opd = .ok (.cmp (immField opd) (rcField opd)) := rfl
@[simp] theorem decodeFields_5 : decodeFields rd 5#4 opd = unpackChecked rd widthJ opd (fun f => .jmp (targetField f)) := rfl
@[simp] theorem decodeFields_6 : decodeFields rd 6#4 opd = unpackChecked rd widthJ opd (fun f => .jeq (targetField f)) := rfl
@[simp] theorem decodeFields_7 : decodeFields rd 7#4 opd = unpackChecked rd widthJ opd (fun f => .jgt (targetField f)) := rfl
@[simp] theorem decodeFields_8 : decodeFields rd 8#4 opd = unpackChecked rd widthJ opd (fun f => .jlt (targetField f)) := rfl
@[simp] theorem decodeFields_9 : decodeFields rd 9#4 opd =
    unpackChecked rd widthM opd (fun f => .sto (addrField f) (rcField f)) := rfl
@[simp] theorem decodeFields_10 : decodeFields rd 10#4 opd =
    unpackChecked rd widthM opd (fun f => .lod (addrField f) (rcField f)) := rfl
@[simp] theorem decodeFields_11 : decodeFields rd 11#4 opd = .ok .rsv11 := rfl
@[simp] theorem decodeFields_12 : decodeFields rd 12#4 opd = .ok .rsv12 := rfl
@[simp] theorem decodeFields_13 : decodeFields rd 13#4 opd = .ok .rsv13 := rfl
@[simp] theorem decodeFields_14 : decodeFields rd 14#4 opd = .ok .rsv14 := rfl
@[simp] theorem decodeFields_15 : decodeFields rd 15#4 opd = .ok .hlt := rfl
end Rows

/-- The opcode is one of the sixteen of the map. -/
theorem opcode_cases (op : Opcode) :
    op = 0#4 ∨ op = 1#4 ∨ op = 2#4 ∨ op = 3#4 ∨ op = 4#4 ∨ op = 5#4 ∨ op = 6#4 ∨ op = 7#4 ∨ op = 8#4 ∨ op = 9#4 ∨
      op = 10#4 ∨ op = 11#4 ∨ op = 12#4 ∨ op = 13#4 ∨ op = 14#4 ∨ op = 15#4 := by
  revert op; decide

/-- Under the reading the spec takes, decoding is DECODE and then the opcode map. -/
theorem decode_eq (w : Word) : decode w = decodeFields decodeReading (codecDecode w).1 (codecDecode w).2 := by
  simp [decode, decodeWith, decodeReading]

/-! ### Register numbers -/

@[simp] theorem Reg.bits_ofBits (b : BitVec 2) : (Reg.ofBits b).bits = b := by revert b; decide

@[simp] theorem Reg.ofBits_bits (r : Reg) : Reg.ofBits r.bits = r := by cases r <;> rfl

theorem Reg.bits_lt (r : Reg) : r.bits.toNat < 4 := r.bits.isLt

theorem Reg.eq_of_bits {a b : Reg} (h : a.bits.toNat = b.bits.toNat) : a = b := by
  rw [← Reg.ofBits_bits a, ← Reg.ofBits_bits b, BitVec.eq_of_toNat_eq h]

/-! ### PACK and the fields, as numbers -/

theorem toNat_append {n m : Nat} (a : BitVec n) (b : BitVec m) : (a ++ b).toNat = a.toNat * 2 ^ m + b.toNat := by
  rw [BitVec.toNat_append, ← Nat.shiftLeft_add_eq_or_of_lt b.isLt, Nat.shiftLeft_eq]

theorem packJ_toNat (t : Addr) : (packJ t).toNat = t.toNat := by
  simp only [packJ, BitVec.toNat_setWidth]; omega

theorem packR_toNat (ra rb rc : Reg) : (packR ra rb rc).toNat = ra.bits.toNat * 16 + rb.bits.toNat * 4 + rc.bits.toNat := by
  simp only [packR, toNat_append]; simp; omega

theorem packM_toNat (a : Addr) (r : Reg) : (packM a r).toNat = a.toNat * 4 + r.bits.toNat := by
  simp only [packM, toNat_append]; simp

theorem immField_toNat (f : Operand) : (immField f).toNat = f.toNat / 4 := by
  simp [immField, Nat.shiftRight_eq_div_pow]; omega

theorem targetField_toNat (f : Operand) : (targetField f).toNat = f.toNat % 32 := by
  simp [targetField]; omega

theorem addrField_toNat (f : Operand) : (addrField f).toNat = f.toNat / 4 % 64 := by
  simp [addrField, Nat.shiftRight_eq_div_pow]

theorem raField_toNat (f : Operand) : (raField f).bits.toNat = f.toNat / 16 % 4 := by
  simp [raField, Nat.shiftRight_eq_div_pow]

theorem rbField_toNat (f : Operand) : (rbField f).bits.toNat = f.toNat / 4 % 4 := by
  simp [rbField, Nat.shiftRight_eq_div_pow]

theorem rcField_toNat (f : Operand) : (rcField f).bits.toNat = f.toNat % 4 := by
  simp [rcField]

/-! ### Justification and the excess-bit check -/

/-- Placing fields sets no bit outside them, and aligning undoes placing. -/
theorem align_place (j : Config.FieldJustify) {k : Nat} {f : Operand} (hk : k ≤ 18) (hf : f.toNat < 2 ^ k) :
    excessOf j k (placeFields j k f) = 0#18 ∧ alignFields j k (placeFields j k f) = f := by
  cases j with
  | low =>
    refine ⟨BitVec.eq_of_toNat_eq ?_, rfl⟩
    simp [excessOf, placeFields, Nat.shiftRight_eq_div_pow, Nat.div_eq_of_lt hf]
  | high =>
    have hp : 2 ^ k * 2 ^ (18 - k) = 2 ^ 18 := by rw [← pow_add]; congr 1; omega
    have hs : f.toNat * 2 ^ (18 - k) < 2 ^ 18 := by rw [← hp]; exact Nat.mul_lt_mul_of_pos_right hf (by positivity)
    refine ⟨BitVec.eq_of_toNat_eq ?_, BitVec.eq_of_toNat_eq ?_⟩
    · simp only [excessOf, placeFields, BitVec.toNat_shiftLeft, Nat.shiftLeft_eq]
      rw [Nat.mod_eq_of_lt hs, mul_assoc, mul_comm (2 ^ (18 - k)), hp]
      simp
    · simp only [alignFields, placeFields, BitVec.toNat_ushiftRight, BitVec.toNat_shiftLeft, Nat.shiftLeft_eq,
        Nat.shiftRight_eq_div_pow]
      rw [Nat.mod_eq_of_lt hs, Nat.mul_div_cancel _ (by positivity)]

/-- The check passes on placed fields and reads them back. -/
theorem unpackChecked_place (rd : Config.DecodeReading) {k : Nat} {f : Operand} (mk : Operand → Instr) (hk : k ≤ 18)
    (hf : f.toNat < 2 ^ k) : unpackChecked rd k (placeFields rd.justify k f) mk = .ok (mk f) := by
  obtain ⟨he, ha⟩ := align_place rd.justify hk hf
  simp [unpackChecked, he, ha]

/-- The check under the reading the spec takes, on the operand's number. -/
theorem unpackChecked_spec (k : Nat) (opd : Operand) (mk : Operand → Instr) :
    unpackChecked decodeReading k opd mk =
      if opd.toNat / 2 ^ k = 0 then .ok (mk opd) else .error .addressOutOfRange := by
  have h : opd >>> k = 0#18 ↔ opd.toNat / 2 ^ k = 0 := by
    rw [← BitVec.toNat_inj]; simp [Nat.shiftRight_eq_div_pow]
  by_cases hz : opd.toNat / 2 ^ k = 0
  · simp [unpackChecked, decodeReading, excessOf, alignFields, h.mpr hz, hz]
  · have : opd >>> k ≠ 0#18 := fun e => hz (h.mp e)
    rw [if_neg hz]
    simp [unpackChecked, decodeReading, excessOf, this]

end Sys2Proof
end

