-- ==== Sys2Proof/Laws/Memory.lean ====
section
/-! SUPPORT. Read after write, and that every memory operation keeps the canonical form. -/

namespace Sys2Proof.Machine

/-- Below the first listed address everything reads as the reset word. -/
theorem Memory.get_of_lt {m : Memory} {lo k : Nat} (h : m.wfFrom lo = true) (hk : k < lo) :
    m.get k = Config.memResetWord := by
  induction m generalizing lo with
  | nil => rfl
  | cons c m ih =>
    obtain ⟨a, w⟩ := c
    simp only [Memory.wfFrom, Bool.and_eq_true, decide_eq_true_eq] at h
    have ha : a ≠ k := by omega
    simp only [Memory.get, if_neg ha]
    exact ih h.2 (by omega)

/-- The canonical form from `lo` up is one from any lower bound up. -/
theorem Memory.wfFrom_mono {m : Memory} {lo hi : Nat} (h : m.wfFrom hi = true) (hl : lo ≤ hi) : m.wfFrom lo = true := by
  cases m with
  | nil => rfl
  | cons c m =>
    simp only [Memory.wfFrom, Bool.and_eq_true, decide_eq_true_eq] at h ⊢
    exact ⟨⟨⟨by omega, h.1.1.2⟩, h.1.2⟩, h.2⟩

theorem Memory.get_consCell (k : Nat) (v : Word) (m : Memory) (j : Nat) (h : m.get k = Config.memResetWord) :
    (Memory.consCell k v m).get j = if k = j then v else m.get j := by
  unfold Memory.consCell
  by_cases hv : v = Config.memResetWord <;> by_cases hk : k = j <;> simp [hv, hk, Memory.get]
  exact hk ▸ h

/-- A read after a write, at every address. -/
theorem Memory.get_set {m : Memory} {lo : Nat} (h : m.wfFrom lo = true) (k : Nat) (v : Word) (j : Nat) :
    (m.set k v).get j = if k = j then v else m.get j := by
  induction m generalizing lo with
  | nil => exact Memory.get_consCell k v [] j rfl
  | cons c m ih =>
    obtain ⟨a, w⟩ := c
    simp only [Memory.wfFrom, Bool.and_eq_true, decide_eq_true_eq] at h
    obtain ⟨⟨⟨-, ha⟩, hw⟩, hm⟩ := h
    simp only [Memory.set]
    split
    · next hk =>
      refine Memory.get_consCell k v _ j ?_
      exact Memory.get_of_lt (lo := a) (by simp [Memory.wfFrom, hm, ha, hw]) hk
    · split
      · next hk =>
        subst hk
        rw [Memory.get_consCell a v m j (Memory.get_of_lt hm (by omega))]
        by_cases hj : a = j <;> simp [Memory.get, hj]
      · next hk =>
        simp only [Memory.get, ih hm]
        by_cases hj : a = j
        · subst hj; simp [Ne.symm hk]
        · simp [hj]

/-- A write leaves every other address alone, whatever the form of the memory. -/
theorem Memory.get_set_other (m : Memory) {k j : Nat} (v : Word) (h : j ≠ k) : (m.set k v).get j = m.get j := by
  have hc : ∀ n : Memory, (Memory.consCell k v n).get j = n.get j := fun n => by
    unfold Memory.consCell
    split
    · rfl
    · simp [Memory.get, Ne.symm h]
  induction m with
  | nil => exact hc []
  | cons c m ih =>
    obtain ⟨a, w⟩ := c
    simp only [Memory.set]
    split
    · exact hc _
    · split
      · next hk => subst hk; rw [hc]; simp [Memory.get, Ne.symm h]
      · simp [Memory.get, ih]

theorem Memory.wfFrom_consCell {m : Memory} {lo k : Nat} (v : Word) (h : m.wfFrom (k + 1) = true) (hl : lo ≤ k)
    (hk : k < Config.memWords) : (Memory.consCell k v m).wfFrom lo = true := by
  unfold Memory.consCell
  split
  · exact Memory.wfFrom_mono h (by omega)
  · next hv => simp [Memory.wfFrom, h, hl, hk, hv]

theorem Memory.wfFrom_set {m : Memory} {lo k : Nat} (v : Word) (h : m.wfFrom lo = true) (hl : lo ≤ k)
    (hk : k < Config.memWords) : (m.set k v).wfFrom lo = true := by
  induction m generalizing lo with
  | nil => exact Memory.wfFrom_consCell v rfl hl hk
  | cons c m ih =>
    obtain ⟨a, w⟩ := c
    simp only [Memory.wfFrom, Bool.and_eq_true, decide_eq_true_eq] at h
    obtain ⟨⟨⟨hla, ha⟩, hw⟩, hm⟩ := h
    simp only [Memory.set]
    split
    · next hka =>
      exact Memory.wfFrom_consCell v (by simp [Memory.wfFrom, hm, ha, hw]; omega) hl hk
    · split
      · next hka => subst hka; exact Memory.wfFrom_consCell v hm hl hk
      · next h1 h2 => simp [Memory.wfFrom, ih hm (by omega), hla, ha, hw]

/-- A store keeps the canonical form. -/
theorem Memory.wf_set {m : Memory} {k : Nat} (v : Word) (h : m.wf = true) (hk : k < Config.memWords) :
    (m.set k v).wf = true := Memory.wfFrom_set v h (Nat.zero_le k) hk

/-- A store is seen at its address. -/
@[simp] theorem State.memWrite_memRead_self {s : State} (a : Addr) (v : Word) (h : s.mem.wf = true) :
    (s.memWrite a v).memRead a = v := by
  simp [State.memRead, Memory.get_set (lo := 0) h]

/-- A store is seen nowhere else. -/
@[simp] theorem State.memWrite_memRead_other (s : State) {a b : Addr} (v : Word) (h : b ≠ a) :
    (s.memWrite a v).memRead b = s.memRead b :=
  Memory.get_set_other s.mem v fun e => h (BitVec.eq_of_toNat_eq e)

/-- A store through an address of the machine keeps the canonical form. -/
theorem State.memWrite_wf {s : State} (a : Addr) (v : Word) (h : s.mem.wf = true) : (s.memWrite a v).mem.wf = true :=
  Memory.wf_set v h a.isLt

/-- LOAD keeps the canonical form. -/
theorem Memory.wf_load {m : Memory} {k : Nat} (ws : List Word) (h : m.wf = true) (hk : k + ws.length ≤ Config.memWords) :
    (m.load k ws).wf = true := by
  induction ws generalizing m k with
  | nil => exact h
  | cons w ws ih =>
    simp only [List.length_cons] at hk
    exact ih (Memory.wf_set w h (by omega)) (by omega)

/-- LOAD from `k` on leaves the addresses below `k` alone. -/
theorem Memory.get_load_below (m : Memory) {k j : Nat} (ws : List Word) (h : j < k) : (m.load k ws).get j = m.get j := by
  induction ws generalizing m k with
  | nil => rfl
  | cons w ws ih => rw [Memory.load, ih _ (by omega), Memory.get_set_other m w (by omega)]

/-- LOAD from `k` on leaves the addresses past its words alone. -/
theorem Memory.get_load_above (m : Memory) {k j : Nat} (ws : List Word) (h : k + ws.length ≤ j) :
    (m.load k ws).get j = m.get j := by
  induction ws generalizing m k with
  | nil => rfl
  | cons w ws ih =>
    simp only [List.length_cons] at h
    rw [Memory.load, ih _ (by omega), Memory.get_set_other m w (by omega)]

/-- LOAD from `k` on puts its words at `k`, `k + 1`, ... -/
theorem Memory.get_load_at {m : Memory} {k i : Nat} (ws : List Word) (h : m.wf = true) (hk : k + ws.length ≤ Config.memWords)
    (hi : i < ws.length) : (m.load k ws).get (k + i) = ws[i] := by
  induction ws generalizing m k i with
  | nil => exact absurd hi (Nat.not_lt_zero i)
  | cons w ws ih =>
    simp only [List.length_cons] at hk hi
    have hw := Memory.wf_set (k := k) w h (by omega)
    cases i with
    | zero =>
      rw [Memory.load, Nat.add_zero k, Memory.get_load_below _ ws (Nat.lt_add_one k), Memory.get_set (lo := 0) h]
      simp
    | succ i =>
      have := ih hw (k := k + 1) (i := i) (by omega) (by omega)
      rwa [Nat.add_right_comm] at this

theorem State.reset_mem_wf : State.reset.mem.wf = true := rfl

end Sys2Proof.Machine
end

