-- ==== Sys2Proof/Laws/Ops.lean ====
section
/-! SUPPORT. One lemma for each shared operation: what the epilogue, a completed instruction, a conditional jump, the
comparison and a step can do. -/

namespace Sys2Proof.Machine

/-- A completed instruction answers exactly the epilogue's state. -/
@[simp] theorem complete_eq_next {e : Executed} {t : State} : complete e = .next t ↔ epilogue e = t :=
  ⟨fun h => Host.Outcome.next.inj h, fun h => congrArg _ h⟩

/-- An instruction is its execute phase, completed. -/
theorem exec_eq (i : Instr) (s : State) : exec i s = complete (execute i s) := by cases i <;> rfl

/-! ### The state and the request each execute phase hands to the epilogue; those of the jumps are cited by name -/

/-- The effective address is the address field itself. -/
@[simp] theorem effectiveAddr_eq (a : Addr) : effectiveAddr a = a := rfl

section Execute
variable (s : State) (ra rb rc : Reg) (imm : Imm) (a : Addr)
@[simp] theorem executeNop_eq : executeNop s = ⟨s, .seq⟩ := rfl
@[simp] theorem executeLdi_eq : executeLdi imm rc s = ⟨s.writeReg rc (immValue imm), .seq⟩ := rfl
@[simp] theorem executeAdd_eq : executeAdd ra rb rc s = ⟨s.writeReg rc (s.readReg ra + s.readReg rb), .seq⟩ := rfl
@[simp] theorem executeSub_eq : executeSub ra rb rc s = ⟨s.writeReg rc (s.readReg ra - s.readReg rb), .seq⟩ := rfl
@[simp] theorem executeCmp_eq : executeCmp imm ra s = ⟨s.setFlag (compareFlag cmpMode (s.readReg ra) imm), .seq⟩ := rfl
theorem executeJmp_eq : executeJmp a s = ⟨s, .abs a⟩ := rfl
theorem executeJeq_eq : executeJeq a s = branchIf .eq a s := rfl
theorem executeJgt_eq : executeJgt a s = branchIf .gt a s := rfl
theorem executeJlt_eq : executeJlt a s = branchIf .lt a s := rfl
@[simp] theorem executeSto_eq : executeSto a ra s = ⟨s.memWrite a (s.readReg ra), .seq⟩ := rfl
@[simp] theorem executeLod_eq : executeLod a rc s = ⟨s.writeReg rc (s.memRead a), .seq⟩ := rfl
@[simp] theorem executeRsv11_eq : executeRsv11 s = ⟨s, .seq⟩ := rfl
@[simp] theorem executeRsv12_eq : executeRsv12 s = ⟨s, .seq⟩ := rfl
@[simp] theorem executeRsv13_eq : executeRsv13 s = ⟨s, .seq⟩ := rfl
@[simp] theorem executeRsv14_eq : executeRsv14 s = ⟨s, .seq⟩ := rfl
@[simp] theorem executeHlt_eq : executeHlt s = ⟨s.setHalt, .seq⟩ := rfl
end Execute

/-! ### The end of a cycle -/

/-- Everything the end of a cycle can be: the run ended by halt, control transferred, the run ended at the last address, or the
next address. -/
theorem closeCycle_cases (e : Executed) :
    (e.state.halt = true ∧ closeCycle e = ⟨e.state.endRun, some (.terminated .byHalt)⟩) ∨
    (e.state.halt = false ∧ ∃ t, e.next = .abs t ∧ closeCycle e = ⟨e.state.setPc t, none⟩) ∨
    (e.state.halt = false ∧ e.next = .seq ∧ e.state.pc = Config.lastAddr ∧
      closeCycle e = ⟨e.state.endRun, some (.terminated .byEndOfMemory)⟩) ∨
    (e.state.halt = false ∧ e.next = .seq ∧ e.state.pc ≠ Config.lastAddr ∧
      closeCycle e = ⟨e.state.setPc (e.state.pc + 1), none⟩) := by
  obtain ⟨s, n⟩ := e
  cases hh : s.halt with
  | true => exact .inl ⟨rfl, if_pos hh⟩
  | false =>
    cases n with
    | abs t => exact .inr (.inl ⟨rfl, t, rfl, by simp [closeCycle, hh]⟩)
    | seq =>
      by_cases hp : s.pc = Config.lastAddr
      · exact .inr (.inr (.inl ⟨rfl, rfl, hp, by simp [closeCycle, hh, hp]⟩))
      · exact .inr (.inr (.inr ⟨rfl, rfl, hp, by simp [closeCycle, hh, hp]⟩))

/-- With `halt` = 1 the cycle ends the run by halt, whatever was requested. -/
theorem closeCycle_halted {e : Executed} (h : e.state.halt = true) :
    closeCycle e = ⟨e.state.endRun, some (.terminated .byHalt)⟩ := if_pos h

/-- A transfer of control ends no run. -/
theorem closeCycle_abs {s : State} {t : Addr} (h : s.halt = false) : closeCycle ⟨s, .abs t⟩ = ⟨s.setPc t, none⟩ := by
  simp [closeCycle, h]

/-- A sequential advance ends the run at the last address only. -/
theorem closeCycle_seq {s : State} (h : s.halt = false) :
    closeCycle ⟨s, .seq⟩ =
      if s.pc = Config.lastAddr then ⟨s.endRun, some (.terminated .byEndOfMemory)⟩ else ⟨s.setPc (s.pc + 1), none⟩ := by
  simp [closeCycle, h]

/-- The epilogue with `halt` = 1. -/
theorem epilogue_halted {e : Executed} (h : e.state.halt = true) : epilogue e = e.state.endRun :=
  congrArg CycleEnd.state (closeCycle_halted h)

/-- The epilogue of a transfer of control. -/
@[simp] theorem epilogue_abs {s : State} {t : Addr} (h : s.halt = false) : epilogue ⟨s, .abs t⟩ = s.setPc t :=
  congrArg CycleEnd.state (closeCycle_abs h)

/-- The epilogue of a sequential advance. -/
theorem epilogue_seq {s : State} (h : s.halt = false) :
    epilogue ⟨s, .seq⟩ = if s.pc = Config.lastAddr then s.endRun else s.setPc (s.pc + 1) := by
  rw [epilogue, closeCycle_seq h]
  split <;> rfl

/-- The epilogue writes no register. -/
@[simp] theorem epilogue_regs (e : Executed) : (epilogue e).regs = e.state.regs := by
  rcases closeCycle_cases e with ⟨-, h⟩ | ⟨-, _, -, h⟩ | ⟨-, -, -, h⟩ | ⟨-, -, -, h⟩ <;> rw [epilogue, h] <;> rfl

/-- The epilogue writes no memory. -/
@[simp] theorem epilogue_mem (e : Executed) : (epilogue e).mem = e.state.mem := by
  rcases closeCycle_cases e with ⟨-, h⟩ | ⟨-, _, -, h⟩ | ⟨-, -, -, h⟩ | ⟨-, -, -, h⟩ <;> rw [epilogue, h] <;> rfl

/-- The epilogue does not touch the flag. -/
@[simp] theorem epilogue_flag (e : Executed) : (epilogue e).flag = e.state.flag := by
  rcases closeCycle_cases e with ⟨-, h⟩ | ⟨-, _, -, h⟩ | ⟨-, -, -, h⟩ | ⟨-, -, -, h⟩ <;> rw [epilogue, h] <;> rfl

@[simp] theorem epilogue_readReg (e : Executed) (r : Reg) : (epilogue e).readReg r = e.state.readReg r :=
  congrArg (RegFile.get · r) (epilogue_regs e)

@[simp] theorem epilogue_memRead (e : Executed) (a : Addr) : (epilogue e).memRead a = e.state.memRead a :=
  congrArg (Memory.get · a.toNat) (epilogue_mem e)

/-- A request SEQ whose execute phase left the control state alone is a sequential advance. -/
theorem advances_epilogue {s x : State} (hp : x.pc = s.pc) (hh : x.halt = s.halt) (ha : x.runActive = s.runActive)
    (h : s.halt = false) : Advances s (epilogue ⟨x, .seq⟩) := by
  rw [epilogue_seq (hh.trans h), hp]
  refine ⟨fun hlt => ?_, fun he => ?_⟩
  · have hne : s.pc ≠ Config.lastAddr := fun e => by rw [e] at hlt; exact absurd hlt (by decide)
    rw [if_neg hne]
    refine ⟨?_, hh, ha⟩
    have h1 : (1 : Addr).toNat = 1 := rfl
    simp only [State.setPc_pc, BitVec.toNat_add, h1]
    omega
  · have hpe : s.pc = Config.lastAddr := BitVec.eq_of_toNat_eq he
    rw [if_pos hpe]
    exact ⟨rfl, rfl, rfl⟩

/-- A conditional jump whose code the flag equals. -/
theorem branchIf_taken {code : Flag} {t : Addr} {s : State} (h : s.flag = code) :
    branchIf code t s = ⟨s.setFlag .unset, .abs t⟩ := if_pos h

/-- A conditional jump whose code the flag does not equal. -/
theorem branchIf_not_taken {code : Flag} {t : Addr} {s : State} (h : s.flag ≠ code) : branchIf code t s = ⟨s, .seq⟩ := if_neg h

theorem Flag.code_inj {f g : Flag} (h : f.code = g.code) : f = g := by
  cases f <;> cases g <;> first | rfl | exact absurd h (by decide)

theorem flagOfDifference_gt {d : Int} : flagOfDifference d = .gt ↔ 0 < d := by
  unfold flagOfDifference
  split
  · simp [*]
  · split <;> simp [*]

theorem flagOfDifference_eq {d : Int} : flagOfDifference d = .eq ↔ d = 0 := by
  unfold flagOfDifference
  split
  · simp; omega
  · split <;> simp [*]

theorem flagOfDifference_lt {d : Int} : flagOfDifference d = .lt ↔ d < 0 := by
  unfold flagOfDifference
  split
  · simp; omega
  · split <;> simp <;> omega

/-- No comparison leaves the flag UNSET. -/
theorem flagOfDifference_ne_unset (d : Int) : flagOfDifference d ≠ .unset := by
  unfold flagOfDifference
  split
  · simp
  · split <;> simp

/-- Everything a step can do: nothing while idle; else the instruction fetched, or the exception its word raises. -/
theorem step_cases {s t : State} (h : step s = .next t) :
    (s.runActive = false ∧ t = s) ∨ (∃ i, s.runActive = true ∧ decode s.fetch = .ok i ∧ exec i s = .next t) ∨
      (∃ e, s.runActive = true ∧ decode s.fetch = .error e ∧ t = (s.takeException e s.fetch).state) := by
  unfold step at h
  split at h
  · next ha =>
    unfold runCycle at h
    split at h
    · next i hi => exact .inr (.inl ⟨i, ha, hi, h⟩)
    · next e he => exact .inr (.inr ⟨e, ha, he, (Host.Outcome.next.inj h).symm⟩)
  · next ha => exact .inl ⟨by simpa using ha, (Host.Outcome.next.inj h).symm⟩

theorem step_of_ok {s : State} {i : Instr} (ha : s.runActive = true) (h : decode s.fetch = .ok i) : step s = exec i s := by
  simp [step, ha, runCycle, h]

theorem step_of_error {s : State} {e : ExecutionError} (ha : s.runActive = true) (h : decode s.fetch = .error e) :
    step s = .next (s.takeException e s.fetch).state := by
  simp [step, ha, runCycle, h]

theorem stepReport_idle {s : State} (h : s.runActive = false) : stepReport s = none := by simp [stepReport, h]

theorem stepReport_of_ok {s : State} {i : Instr} (ha : s.runActive = true) (h : decode s.fetch = .ok i) :
    stepReport s = instrReport i s := by
  simp [stepReport, ha, h]

theorem stepReport_of_error {s : State} {e : ExecutionError} (ha : s.runActive = true) (h : decode s.fetch = .error e) :
    stepReport s = some (.faulted e s.pc s.fetch) := by
  simp [stepReport, ha, h]

theorem runAnswer_zero (s : State) : runAnswer 0 s = none := rfl

/-- A run answers at the first cycle that reports. -/
theorem runAnswer_of_report {s t : State} {r : RunResult} (h : step s = .next t) (hr : stepReport s = some r) (k : Nat) :
    runAnswer (k + 1) s = some (r, t) := by
  simp only [runAnswer, h, hr]

/-- A run whose first cycle makes no report answers what the rest of it answers. -/
theorem runAnswer_succ {s t : State} (h : step s = .next t) (hr : stepReport s = none) (k : Nat) :
    runAnswer (k + 1) s = runAnswer k t := by
  simp only [runAnswer, h, hr]

theorem run_zero (s : State) : Host.Core.run Sys2Proof.core 0 s = .next s := rfl

/-- A run goes on from the state its first step answers. -/
theorem run_succ {s t : State} (h : step s = .next t) (k : Nat) :
    Host.Core.run Sys2Proof.core (k + 1) s = Host.Core.run Sys2Proof.core k t := by
  have hc : Sys2Proof.core.step s = .next t := h
  simp only [Host.Core.run, hc]

/-- Everything a move of the host can do. -/
theorem hostMove_cases {op : HostOp} {s t : State} (h : hostMove op s = .next t) :
    s.runActive = false ∧
    ((op = .create ∧ t = State.reset) ∨
      (∃ ws, op = .load ws ∧ ws.length ≤ Config.memWords ∧ t = { s with mem := Memory.load s.mem 0 ws }) ∨
      (op = .run ∧ t = { s with runActive := true }) ∨ (op = .read ∧ t = s)) := by
  unfold hostMove at h
  split at h
  · exact absurd h (by simp)
  · next ha =>
    refine ⟨by simpa using ha, ?_⟩
    cases op with
    | create => exact .inl ⟨rfl, (Host.Outcome.next.inj h).symm⟩
    | load ws =>
      simp only [hostLoad] at h
      split at h
      · next hl => exact .inr (.inl ⟨ws, rfl, hl, (Host.Outcome.next.inj h).symm⟩)
      · exact absurd h (by simp)
    | run => exact .inr (.inr (.inl ⟨rfl, (Host.Outcome.next.inj h).symm⟩))
    | read => exact .inr (.inr (.inr ⟨rfl, (Host.Outcome.next.inj h).symm⟩))

end Sys2Proof.Machine
end

