-- ==== Sys2Proof/Laws/PerInstr.lean ====
section
/-! SUPPORT. A statement about every instruction as syntax, one lemma per constructor: ENCODE writes 0 to bits 31:22 (R36)
and the opcode of the map (R43) to bits 21:18, whatever the justification of the fields. -/

namespace Sys2Proof.Laws.CanonicalWord

def Statement (i : Instr) : Prop :=
  ∀ j : Config.FieldJustify, (encodeWith j i).extractLsb' 22 10 = 0#10 ∧ (encodeWith j i).extractLsb' 18 4 = i.opcode

/-- ENCODE's two upper parts, for any opcode and operand. -/
theorem codecEncode_upper (op : Opcode) (opd : Operand) :
    (codecEncode op opd).extractLsb' 22 10 = 0#10 ∧ (codecEncode op opd).extractLsb' 18 4 = op := by
  have h : (codecEncode op opd).toNat = op.toNat * 2 ^ 18 + opd.toNat := by
    simp only [codecEncode, BitVec.toNat_append, BitVec.toNat_ofNat, Nat.zero_mod, Nat.zero_shiftLeft, Nat.zero_or]
    rw [← Nat.shiftLeft_add_eq_or_of_lt opd.isLt, Nat.shiftLeft_eq]
  refine ⟨BitVec.eq_of_toNat_eq ?_, BitVec.eq_of_toNat_eq ?_⟩ <;>
    simp only [BitVec.extractLsb'_toNat, h, Nat.shiftRight_eq_div_pow, BitVec.toNat_ofNat] <;> omega

theorem nop : Statement .nop := fun _ => codecEncode_upper _ _
theorem ldi (imm : Imm) (rd : Reg) : Statement (.ldi imm rd) := fun _ => codecEncode_upper _ _
theorem add (ra rb rc : Reg) : Statement (.add ra rb rc) := fun _ => codecEncode_upper _ _
theorem sub (ra rb rc : Reg) : Statement (.sub ra rb rc) := fun _ => codecEncode_upper _ _
theorem cmp (imm : Imm) (r : Reg) : Statement (.cmp imm r) := fun _ => codecEncode_upper _ _
theorem jmp (t : Addr) : Statement (.jmp t) := fun _ => codecEncode_upper _ _
theorem jeq (t : Addr) : Statement (.jeq t) := fun _ => codecEncode_upper _ _
theorem jgt (t : Addr) : Statement (.jgt t) := fun _ => codecEncode_upper _ _
theorem jlt (t : Addr) : Statement (.jlt t) := fun _ => codecEncode_upper _ _
theorem sto (a : Addr) (rs : Reg) : Statement (.sto a rs) := fun _ => codecEncode_upper _ _
theorem lod (a : Addr) (rd : Reg) : Statement (.lod a rd) := fun _ => codecEncode_upper _ _
theorem rsv11 : Statement .rsv11 := fun _ => codecEncode_upper _ _
theorem rsv12 : Statement .rsv12 := fun _ => codecEncode_upper _ _
theorem rsv13 : Statement .rsv13 := fun _ => codecEncode_upper _ _
theorem rsv14 : Statement .rsv14 := fun _ => codecEncode_upper _ _
theorem hlt : Statement .hlt := fun _ => codecEncode_upper _ _

end Sys2Proof.Laws.CanonicalWord
end

