-- ==== Sys2Proof/Tests/Slice0.lean ====
section
/-! SUPPORT. Tests and witnesses. Expected words and results are those of spec/95_test_vectors.md and of the examples in the
rules; each theorem names its vector or rule. The witnesses show, for each statement with hypotheses, concrete values that
meet all of them. -/

namespace Sys2Proof.Tests

open Sys2Proof.Machine

/-- The state an outcome goes on to. -/
def nextOf (o : Host.Outcome State Fault Refusal) : Option State :=
  match o with
  | .next s => some s
  | .fault _ => none
  | .refused _ => none

/-- A state in a run, about to execute the word `w` at address `pc` over memory `m`. -/
def running (x : RegFile) (f : Flag) (pc : Addr) (w : Word) (m : Memory := []) : State :=
  { State.reset with regs := x, flag := f, pc := pc, mem := Memory.set m pc.toNat w, runActive := true }

/-- `x`, `flag`, `pc`, `run_active` after one step. -/
def after (s : State) : Option (RegFile × Flag × Addr × Bool) :=
  (nextOf (step s)).map fun t => (t.regs, t.flag, t.pc, t.runActive)

def zeros : RegFile := ⟨0, 0, 0, 0⟩

/-! ### WellFormed refuses what the 5-bit target cannot hold (R38) -/

theorem test_jmp_32_ill_formed : (Instr.jmp 32).wellFormed = false := by decide
theorem test_jeq_63_ill_formed : (Instr.jeq 63).wellFormed = false := by decide
theorem test_jgt_32_ill_formed : (Instr.jgt 32).wellFormed = false := by decide
theorem test_jlt_40_ill_formed : (Instr.jlt 40).wellFormed = false := by decide
theorem test_targets_31_well_formed :
    (Instr.jmp 31).wellFormed ∧ (Instr.jeq 31).wellFormed ∧ (Instr.jgt 31).wellFormed ∧ (Instr.jlt 0).wellFormed := by decide

/-! ### Words written out from 30_encoding.md, one for every opcode, to the instruction each stands for -/

-- 0000000000 | 0000 | 000000000000000000, and V-H5 with the operand all ones
theorem test_decode_nop : decode 0b00000000000000000000000000000000 = .ok .nop ∧ decode 0x0003FFFF = .ok .nop := by decide
-- 0000000000 | 0001 | 0000000000000101 00 (R60's example), and V-C13
theorem test_decode_ldi :
    decode 0b00000000000001000000000000010100 = .ok (.ldi 5 .r0) ∧ decode 0x0007FFFF = .ok (.ldi 65535 .r3) := by decide
-- 0000000000 | 0010 | 000000000000 00 01 10 (R61's example), and V-A4
theorem test_decode_add :
    decode 0b00000000000010000000000000000110 = .ok (.add .r0 .r1 .r2) ∧ decode 0x00080022 = .ok (.add .r2 .r0 .r2) := by decide
-- 0000000000 | 0011 | 000000000000 00 01 00 (R62's example)
theorem test_decode_sub : decode 0b00000000000011000000000000000100 = .ok (.sub .r0 .r1 .r0) := by decide
-- 0000000000 | 0100 | 0000000000001000 10 (R64's example), and V-C9
theorem test_decode_cmp :
    decode 0b00000000000100000000000000100010 = .ok (.cmp 8 .r2) ∧ decode 0x0013FFFE = .ok (.cmp 65535 .r2) := by decide
-- 0000000000 | 0101 | 0000000000000 00101 (R65's example), and V-C17
theorem test_decode_jmp :
    decode 0b00000000000101000000000000000101 = .ok (.jmp 5) ∧ decode 0x0014001F = .ok (.jmp 31) := by decide
-- 0000000000 | 0110 | 0000000000000 00110 (R66's example)
theorem test_decode_jeq : decode 0b00000000000110000000000000000110 = .ok (.jeq 6) := by decide
-- 0000000000 | 0111 | 0000000000000 00011 (R67's example)
theorem test_decode_jgt : decode 0b00000000000111000000000000000011 = .ok (.jgt 3) := by decide
-- 0000000000 | 1000 | 0000000000000 00010 (R68's example)
theorem test_decode_jlt : decode 0b00000000001000000000000000000010 = .ok (.jlt 2) := by decide
-- 0000000000 | 1001 | 0000000000 101000 10 (R71's example), and V-C19
theorem test_decode_sto :
    decode 0b00000000001001000000000010100010 = .ok (.sto 40 .r2) ∧ decode 0x002400FF = .ok (.sto 63 .r3) := by decide
-- 0000000000 | 1010 | 0000000000 111111 11 (R72's example), and V-C21
theorem test_decode_lod :
    decode 0b00000000001010000000000011111111 = .ok (.lod 63 .r3) ∧ decode 0x00280001 = .ok (.lod 0 .r1) := by decide
-- R76 and V-H6, V-H7
theorem test_decode_rsv :
    decode 0x002C1234 = .ok .rsv11 ∧ decode 0b00000000001100000000000000000000 = .ok .rsv12 ∧
    decode 0b00000000001101000000000000000000 = .ok .rsv13 ∧ decode 0x003BFFFF = .ok .rsv14 := by decide
-- 0000000000 | 1111 | 000000000000000000 (R74), and V-H2
theorem test_decode_hlt : decode 0b00000000001111000000000000000000 = .ok .hlt ∧ decode 0x003FFFFF = .ok .hlt := by decide
-- V-C10, V-C11: bits 31:22 ignored (D3), and the reading set aside
theorem test_decode_high_bits :
    decode 0xFFC40014 = .ok (.ldi 5 .r0) ∧ decodeWith ⟨.low, .fault, .unrecognized⟩ 0x00440014 = .ok .nop := by decide
-- V-A5, V-J14, V-J15, V-M7, V-M8: excess bits fault (R41)
theorem test_decode_excess :
    decode 0x00080046 = .error .addressOutOfRange ∧ decode 0x00140020 = .error .addressOutOfRange ∧
    decode 0x001A0003 = .error .addressOutOfRange ∧ decode 0x00240101 = .error .addressOutOfRange ∧
    decode 0x0028011B = .error .addressOutOfRange := by decide
-- 92_eei_decisions.md D1: the example words of the left-justified reading; P6 under EXCESS_BITS = ignore
theorem test_decode_other_readings :
    decodeWith ⟨.high, .fault, .ignore⟩ 0x00086000 = .ok (.add .r0 .r1 .r2) ∧
    decodeWith ⟨.high, .fault, .ignore⟩ 0x00204000 = .ok (.jlt 2) ∧
    decodeWith ⟨.high, .fault, .ignore⟩ 0x00268800 = .ok (.sto 40 .r2) ∧
    decodeWith ⟨.low, .ignore, .ignore⟩ 0x00240101 = .ok (.sto 0 .r1) := by decide
-- V-C13, V-C15, V-C16, V-C18, V-C19, V-C20: words of the encoder
theorem test_encode :
    encode (.ldi 65535 .r3) = 0x0007FFFF ∧ encode (.add .r3 .r3 .r3) = 0x0008003F ∧ encode (.sub .r0 .r1 .r2) = 0x000C0006 ∧
    encode (.jlt 31) = 0x0020001F ∧ encode (.sto 63 .r3) = 0x002400FF ∧ encode (.lod 63 .r3) = 0x002800FF ∧
    encode .hlt = 0x003C0000 := by decide
-- V-C3, V-C8: ENCODE and DECODE look at no field
theorem test_codec : codecEncode 15 0x3FFFF = 0x003FFFFF ∧ codecDecode 0x003FFFFF = (15, 0x3FFFF) := by decide
-- R31's example, and a truncated image
theorem test_image :
    wordsToBytes [0x00040014] = [0x14, 0x00, 0x04, 0x00] ∧ bytesToWords [0x14, 0x00, 0x04, 0x00] = .ok [0x00040014] ∧
    bytesToWords [0x14, 0x00, 0x04] = .error .truncatedInput := by decide

/-! ### One step each, from 95_test_vectors.md -/

-- V-L2
theorem test_ldi_clears_upper_half :
    after (running ⟨0, 0, 0, 0xFFFFFFFF⟩ .lt 9 0x0007FFFF) = some (⟨0, 0, 0, 0xFFFF⟩, .lt, 10, true) := by decide
-- V-A2, V-A4
theorem test_add_wraps : after (running ⟨0xFFFFFFFF, 1, 0, 0⟩ .unset 0 0x00080006) =
    some (⟨0xFFFFFFFF, 1, 0, 0⟩, .unset, 1, true) := by decide
theorem test_add_destination_is_source :
    after (running ⟨3, 0, 3, 0⟩ .unset 3 0x00080022) = some (⟨3, 0, 6, 0⟩, .unset, 4, true) := by decide
-- V-S1, V-S3
theorem test_sub_in_place : after (running ⟨3, 1, 0, 0⟩ .unset 4 0x000C0004) = some (⟨2, 1, 0, 0⟩, .unset, 5, true) := by decide
theorem test_sub_wraps :
    after (running ⟨7, 9, 0, 0⟩ .unset 0 0x000C0006) = some (⟨7, 9, 0xFFFFFFFE, 0⟩, .unset, 1, true) := by decide
-- V-K2, V-K8
theorem test_cmp_less : after (running ⟨0, 0, 5, 0⟩ .unset 0 0x00100022) = some (⟨0, 0, 5, 0⟩, .lt, 1, true) := by decide
theorem test_cmp_large_register_is_greater :
    after (running ⟨0, 0, 0xFFFFFFFE, 0⟩ .unset 0 0x0013FFFE) = some (⟨0, 0, 0xFFFFFFFE, 0⟩, .gt, 1, true) := by decide
-- The table of 92_eei_decisions.md D6
theorem test_cmp_modes :
    compareFlag .wrap32 0x80000000 0 = .lt ∧ compareFlag .wrap32 0x80000000 1 = .gt ∧ compareFlag .cast32 0x80000000 1 = .lt ∧
    compareFlag .wrap32 0xFFFFFFFE 65535 = .lt ∧ compareFlag .exact 0x80000000 0 = .gt := by decide
-- V-J1, V-J13
theorem test_jmp_no_increment : after (running zeros .gt 18 0x00140005) = some (zeros, .gt, 5, true) := by decide
theorem test_jmp_at_63 : after (running zeros .unset 63 0x0014001F) = some (zeros, .unset, 31, true) := by decide
-- V-J4, V-J6
theorem test_jeq_not_taken : after (running zeros .gt 3 0x00180006) = some (zeros, .gt, 4, true) := by decide
theorem test_jeq_to_0 : after (running zeros .eq 4 0x00180000) = some (zeros, .unset, 0, true) := by decide
-- V-J11, V-J12
theorem test_jgt_taken_at_63 : after (running zeros .gt 63 0x001C0007) = some (zeros, .unset, 7, true) := by decide
theorem test_jgt_not_taken_at_63 : after (running zeros .eq 63 0x001C0007) = some (zeros, .eq, 0, false) := by decide
-- V-J9, V-J10
theorem test_jlt_taken : after (running zeros .lt 0 0x00200002) = some (zeros, .unset, 2, true) := by decide
theorem test_jlt_not_taken : after (running zeros .gt 7 0x0020000A) = some (zeros, .gt, 8, true) := by decide
-- V-M2, V-M5
theorem test_sto_whole_word : (nextOf (step (running ⟨0, 0, 0, 0xFFFFFFFE⟩ .unset 0 0x002400FF))).map
    (fun t => (t.memRead 63, t.memRead 0)) = some (0xFFFFFFFE, 0x002400FF) := by decide
theorem test_sto_over_itself :
    (nextOf (step (running zeros .unset 5 0x00240014))).map (fun t => (t.mem, t.pc)) = some ([], 6) := by decide
-- V-M4, V-M6
theorem test_lod_own_word :
    after (running zeros .unset 0 0x00280001) = some (⟨0, 0x00280001, 0, 0⟩, .unset, 1, true) := by decide
theorem test_lod_unwritten : after (running ⟨9, 0, 0, 0⟩ .unset 0 0x0028007C) = some (zeros, .unset, 1, true) := by decide
-- V-H1
theorem test_hlt : after (running ⟨5, 4, 9, 0⟩ .eq 3 0x003C0000) = some (⟨5, 4, 9, 0⟩, .eq, 0, false) ∧
    stepReport (running ⟨5, 4, 9, 0⟩ .eq 3 0x003C0000) = some (.terminated .byHalt) := by decide
-- V-H8, V-H9
theorem test_nop_at_62 : after (running zeros .unset 62 0) = some (zeros, .unset, 63, true) := by decide
theorem test_nop_at_63 :
    after (running zeros .unset 63 0) = some (zeros, .unset, 0, false) ∧
    stepReport (running zeros .unset 63 0) = some (.terminated .byEndOfMemory) := by decide
-- V-H6, V-H7 and R76
theorem test_rsv11 : after (running zeros .unset 2 0x002C1234) = some (zeros, .unset, 3, true) := by decide
theorem test_rsv12_to_14 : after (running zeros .lt 2 0x00300001) = some (zeros, .lt, 3, true) ∧
    after (running zeros .lt 2 0x0037FFFF) = some (zeros, .lt, 3, true) ∧
    after (running zeros .lt 2 0x003BFFFF) = some (zeros, .lt, 3, true) := by decide
-- V-A5: the fault keeps the state and is reported
theorem test_fault : after (running ⟨1, 2, 3, 4⟩ .gt 0 0x00080046) = some (⟨1, 2, 3, 4⟩, .gt, 0, false) ∧
    stepReport (running ⟨1, 2, 3, 4⟩ .gt 0 0x00080046) = some (.faulted .addressOutOfRange 0 0x00080046) := by decide
-- R30, R56: LOAD then RUN, and the first word runs
theorem test_load_then_run : ((nextOf (hostMove (.load [0x00040014]) State.reset)).bind fun t =>
    (nextOf (hostMove .run t)).bind after) = some (⟨5, 0, 0, 0⟩, .unset, 1, true) := by decide
-- The first instruction after reset, by the host's two entry points
theorem test_placed_after_reset : decodeTableWord 24 0x00040014 = some (.ldi 5 .r0) ∧
    after (State.reset.withFetchWord 24 0x00040014) = some (⟨5, 0, 0, 0⟩, .unset, 1, true) := by decide

/-! ### Witnesses: values that meet the hypotheses of the statements -/

theorem witness_DecoderReadsFieldsOfFormatsRJM :
    (63 : Operand).toNat < 2 ^ 6 ∧ (31 : Operand).toNat < 2 ^ 5 ∧ (255 : Operand).toNat < 2 ^ 8 := by decide
theorem witness_EveryWellFormedInstructionDecodesBack : (Instr.jlt 31).wellFormed = true := by decide
theorem witness_DecodedInstructionEncodesBack :
    decode 0xFFC40014 = .ok (.ldi 5 .r0) ∧ Instr.ldi 5 .r0 ≠ .hlt ∧ isNoOp (.ldi 5 .r0) = false := by decide
theorem witness_IllFormedInstructionHasNoWord : (Instr.jeq 32).wellFormed = false := by decide
theorem witness_HighWordBitsIgnored :
    (0xFFC40014 : Word).toNat % 2 ^ 22 = (0x00040014 : Word).toNat % 2 ^ 22 ∧ 2 ^ 22 ≤ (0x00400000 : Word).toNat := by decide
/-- For LdiLoadsZeroExtendedImmediate, AddWritesWrappedSum, SubWritesWrappedDifference, CmpSetsFlagByUnsignedComparison,
JmpLandsOnItsTarget, StoReplacesOneWord, LodReadsOneWord, NopOnlyAdvances, UnrecognizedOpcodesOnlyAdvance and
NextPcFollowsTheTable, with both clauses of `Advances` at their boundary. -/
theorem witness_halt_clear : State.reset.mem.wf = true ∧ State.reset.halt = false ∧
    ({ State.reset with pc := 62 } : State).pc.toNat < 63 ∧ ({ State.reset with pc := 63 } : State).pc.toNat = 63 := by decide
theorem witness_NopOnlyAdvances : (0x0003FFFF : Word).extractLsb' 18 4 = 0#4 := by decide
theorem witness_HltEndsTheRun : (0x003FFFFF : Word).extractLsb' 18 4 = 15#4 := by decide
theorem witness_AddSubAreTheOnlyArithmetic :
    (∃ t, exec (.ldi 5 .r0) State.reset = .next t ∧ t.readReg .r0 ≠ State.reset.readReg .r0) ∧
    ∃ t, exec (.cmp 0 .r0) State.reset = .next t ∧ t.flag ≠ State.reset.flag ∧ t.flag ≠ .unset :=
  ⟨⟨_, rfl, by decide⟩, ⟨_, rfl, by decide, by decide⟩⟩
theorem witness_UnrecognizedOpcodesOnlyAdvance :
    (0x002C1234 : Word).extractLsb' 18 4 = 11#4 ∧ (0x0033FFFF : Word).extractLsb' 18 4 = 12#4 ∧
    (0xFFF40000 : Word).extractLsb' 18 4 = 13#4 ∧ (0x003BFFFF : Word).extractLsb' 18 4 = 14#4 := by decide
/-- For JeqTakenExactlyOnEqual, JgtTakenExactlyOnGreater and JltTakenExactlyOnLess, taken and not taken. -/
theorem witness_conditional_jumps :
    (running zeros .eq 3 0).halt = false ∧ (running zeros .eq 3 0).flag.code = 2 ∧ (running zeros .gt 3 0).flag.code = 1 ∧
    (running zeros .lt 3 0).flag.code = 3 ∧ State.reset.flag.code ≠ 1 ∧ State.reset.flag.code ≠ 2 ∧
    State.reset.flag.code ≠ 3 := by decide
theorem witness_NextPcFollowsTheTable : transferTarget (.jgt 7) .gt = some 7 ∧ transferTarget (.jgt 7) .eq = none ∧
    transferTarget .nop .gt = none ∧ Instr.nop ≠ .hlt ∧ Instr.jgt 7 ≠ .hlt := by decide
theorem witness_CmpReadingsAgreeBelowSignBit : (0x7FFFFFFF : Word).toNat < 2 ^ 31 ∧ 2 ^ 31 ≤ (0x80000000 : Word).toNat := by decide
theorem witness_OneConditionalJumpTakenAfterCmp : ∃ t u, exec (.cmp 0 .r0) State.reset = .next t ∧
    transferTarget (.jeq 5) t.flag = some 5 ∧ exec (.jeq 5) t = .next u := ⟨_, _, rfl, by decide, rfl⟩
theorem witness_StepRunsTheDecodedInstruction : (running zeros .unset 0 0x00040014).runActive = true ∧
    decode ((running zeros .unset 0 0x00040014).memRead 0) = .ok (.ldi 5 .r0) := by decide
theorem witness_IdleEngineChangesNothing : State.reset.runActive = false := by decide
theorem witness_PlacedWordRunsNext :
    State.reset.mem.wf = true ∧ 0x00040014 < 2 ^ 32 ∧ decode (BitVec.ofNat 32 0x00040014) = .ok (.ldi 5 .r0) := by decide
theorem witness_FaultEndsRunAndKeepsState : decode 0x00240101 = .error .addressOutOfRange ∧
    (running zeros .unset 1 0x00240101).runActive = true ∧ (running zeros .unset 1 0x00240101).fetch = 0x00240101 := by decide
theorem witness_ExcessBitFaultsBeforeExecuting :
    ((0x00080046 : Word).getLsbD 6 = true ∧ (0x00080046 : Word).extractLsb' 18 4 = 2#4) ∧
    ((0x00140020 : Word).getLsbD 5 = true ∧ (0x00140020 : Word).extractLsb' 18 4 = 5#4) ∧
    ((0x001A0003 : Word).getLsbD 17 = true ∧ (0x001A0003 : Word).extractLsb' 18 4 = 6#4) ∧
    ((0x00240101 : Word).getLsbD 8 = true ∧ (0x00240101 : Word).extractLsb' 18 4 = 9#4) := by decide
theorem witness_RunEndsInThreeWaysOnly :
    (∃ t, step (running zeros .unset 1 0x00240101) = .next t ∧ t.runActive = false) ∧
    (∃ t, step (running zeros .unset 1 0x003C0000) = .next t ∧ t.runActive = false) ∧
    ∃ t, step (running zeros .unset 63 0) = .next t ∧ t.runActive = false :=
  ⟨⟨_, rfl, rfl⟩, ⟨_, rfl, rfl⟩, ⟨_, rfl, rfl⟩⟩
/-- A fault, a termination, a cycle that goes on, and an idle step. -/
theorem witness_ReportMadeExactlyWhenTheRunEnds :
    (∃ t, step (running zeros .unset 1 0x00240101) = .next t ∧ (stepReport (running zeros .unset 1 0x00240101)).isSome) ∧
    (∃ t, step (running zeros .unset 63 0) = .next t ∧ (stepReport (running zeros .unset 63 0)).isSome) ∧
    (∃ t, step (running zeros .unset 62 0) = .next t ∧ stepReport (running zeros .unset 62 0) = none) ∧
    ∃ t, State.reset.halt = false ∧ step State.reset = .next t :=
  ⟨⟨_, rfl, rfl⟩, ⟨_, rfl, rfl⟩, ⟨_, rfl, rfl⟩, ⟨_, rfl, rfl⟩⟩
theorem witness_TerminationsLeaveTheSameState :
    (running zeros .unset 63 0).halt = false ∧ (running zeros .unset 63 0).pc.toNat = 63 := by decide
theorem witness_UpperHalfEnteredOnlyFromBelow :
    (∃ t, step (running zeros .unset 31 0) = .next t ∧ t.runActive = true ∧ 32 ≤ t.pc.toNat) ∧
    (∃ t, step (running zeros .unset 32 0) = .next t ∧ t.runActive = true) ∧
    ∃ t, step (running zeros .unset 63 0x0014001F) = .next t ∧ t.runActive = true :=
  ⟨⟨_, rfl, rfl, by decide⟩, ⟨_, rfl, rfl⟩, ⟨_, rfl, rfl⟩⟩
theorem witness_OneKindOfWritePerInstruction :
    (∃ t, exec (.ldi 5 .r0) State.reset = .next t ∧ t.readReg .r0 ≠ State.reset.readReg .r0) ∧
    ∃ t, exec (.sto 63 .r0) (running ⟨1, 0, 0, 0⟩ .unset 0 0) = .next t ∧
      t.memRead 63 ≠ (running ⟨1, 0, 0, 0⟩ .unset 0 0).memRead 63 := ⟨⟨_, rfl, by decide⟩, ⟨_, rfl, by decide⟩⟩
theorem witness_OnlyFourInstructionsWriteRegisters : ∃ t, move .cycle (running zeros .unset 0 0x00040014) = .next t ∧
    t.readReg .r0 ≠ (running zeros .unset 0 0x00040014).readReg .r0 := ⟨_, rfl, by decide⟩
theorem witness_OnlyStoAndLoadWriteMemory :
    (∃ t, move (.host (.load [7])) State.reset = .next t ∧ t.memRead 0 ≠ State.reset.memRead 0) ∧
    ∃ t, move .cycle (running ⟨1, 0, 0, 0⟩ .unset 0 0x002400FC) = .next t ∧
      t.memRead 63 ≠ (running ⟨1, 0, 0, 0⟩ .unset 0 0x002400FC).memRead 63 := ⟨⟨_, rfl, by decide⟩, ⟨_, rfl, by decide⟩⟩
theorem witness_FlagChangesOnlyAsTabled :
    (∃ t, move .cycle (running zeros .unset 0 0x00100000) = .next t ∧ t.flag ≠ .unset) ∧
    ∃ t, move .cycle (running zeros .lt 0 0x00200002) = .next t ∧ t.flag ≠ .lt := ⟨⟨_, rfl, by decide⟩, ⟨_, rfl, by decide⟩⟩
theorem witness_FlagOutlivesTheRun :
    (∃ t, step (running zeros .gt 3 0x003C0000) = .next t ∧ t.runActive = false ∧
      ∀ imm r, decode (running zeros .gt 3 0x003C0000).fetch ≠ .ok (.cmp imm r)) ∧
    (∃ t, hostMove (.load [7]) State.reset = .next t) ∧ (∃ t, hostMove .run State.reset = .next t) ∧
    ∃ t, State.reset.flag = .unset ∧ exec (.jgt 31) State.reset = .next t ∧ ∀ imm r, Instr.jgt 31 ≠ .cmp imm r :=
  ⟨⟨_, rfl, rfl, fun _ _ h => nomatch (h : Except.ok Instr.hlt = _)⟩, ⟨_, rfl⟩, ⟨_, rfl⟩, ⟨_, rfl, rfl, fun _ _ h => nomatch h⟩⟩
theorem witness_StoreThenLoadReturnsTheWord : ∃ t u, State.reset.mem.wf = true ∧ exec (.sto 63 .r1) State.reset = .next t ∧
    exec (.lod 63 .r2) t = .next u := ⟨_, _, rfl, rfl, rfl⟩
theorem witness_StoreSeenByTheNextFetch :
    (running zeros .unset 62 0x002400FF).mem.wf = true ∧ (running zeros .unset 62 0x002400FF).pc.toNat < 63 ∧
    decode (running zeros .unset 62 0x002400FF).fetch = .ok (.sto 63 .r3) ∧
    decode (running zeros .unset 5 0x00240014).fetch = .ok (.sto 5 .r0) := by decide
theorem witness_MemoriesThatReadAlikeAreEqual : Memory.wf [(0, 1), (63, 5)] = true := by decide
/-- An idle state at a word the decoder rejects; `witness_host_moves` has one at an instruction. -/
theorem witness_RunStartsAtTheCurrentPc : ({ running zeros .unset 4 0x00240101 with runActive := false } : State).runActive = false ∧
    decode ({ running zeros .unset 4 0x00240101 with runActive := false } : State).fetch = .error .addressOutOfRange := by decide
/-- For CreateLeavesTheTabledValues, LoadReplacesTheFirstWords (64 and 65 words), RunStartsAtTheCurrentPc and
HostHasNoMoveDuringRun. -/
theorem witness_host_moves : State.reset.runActive = false ∧ State.reset.mem.wf = true ∧
    decode State.reset.fetch = .ok .nop ∧ (List.replicate 64 (1 : Word)).length ≤ 64 ∧
    64 < (List.replicate 65 (1 : Word)).length ∧ (running zeros .unset 0 0).runActive = true := by decide
theorem witness_FaultRepeatsUntilRepaired :
    decode (running zeros .unset 0 0x00240101).fetch = .error .addressOutOfRange ∧
    (running zeros .unset 0 0x00240101).mem.wf = true ∧ decode ([0x003C0000] : List Word)[0] = .ok .hlt ∧
    (∃ t u, step (running zeros .unset 0 0x00240101) = .next t ∧ hostMove .run t = .next u) :=
  ⟨by decide, by decide, by decide, ⟨_, _, rfl, rfl⟩⟩
theorem witness_EveryMoveKeepsTheInvariant :
    State.reset.inv = true ∧ (∃ t, move (.host .run) State.reset = .next t) ∧
    (running zeros .unset 0 0x00240101).inv = true ∧ ∃ t, move .cycle (running zeros .unset 0 0x00240101) = .next t :=
  ⟨rfl, ⟨_, rfl⟩, by decide, ⟨_, rfl⟩⟩
theorem witness_ReachableStatesMeetTheInvariant : ∃ s, Reachable s ∧ s.runActive = true ∧ s.fetch = 0x00040014 :=
  ⟨_, .move (.host .run) (.move (.host (.load [0x00040014])) .reset rfl) rfl, rfl, by decide⟩
theorem witness_RunAnswersOnceWithTheLastReport : (running zeros .unset 62 0).inv = true ∧
    (∃ t, runAnswer 2 (running zeros .unset 62 0) = some (.terminated .byEndOfMemory, t)) ∧
    (running zeros .gt 4 0x00240101).inv = true ∧
    ∃ t, runAnswer 1 (running zeros .gt 4 0x00240101) = some (.faulted .addressOutOfRange 4 0x00240101, t) :=
  ⟨by decide, ⟨_, rfl⟩, by decide, ⟨_, rfl⟩⟩
theorem witness_NoOpsRunOffTheEnd : ∃ s : State, s.runActive = true ∧ s.halt = false ∧ s.pc.toNat = 62 ∧
    ∀ a : Addr, s.pc.toNat ≤ a.toNat → ∃ i, decode (s.memRead a) = .ok i ∧ isNoOp i = true :=
  ⟨{ State.reset with runActive := true, pc := 62 }, rfl, rfl, rfl, fun _ _ =>
    ⟨.nop, show decode (0 : Word) = .ok .nop by decide, rfl⟩⟩
theorem witness_JumpToItselfNeverEnds : (running zeros .unset 31 0x0014001F).runActive = true ∧
    (running zeros .unset 31 0x0014001F).halt = false ∧
    decode (running zeros .unset 31 0x0014001F).fetch = .ok (.jmp (running zeros .unset 31 0x0014001F).pc) := by decide

end Sys2Proof.Tests
end

section
/-! Encoding (30_encoding.md): ENCODE and DECODE as numbers and as inverses, PACK_I against the fields of format I, and the
obligations on DECODE, format I and format N. -/

namespace Sys2Proof

/-! ### ENCODE and DECODE (R33 to R36) -/

theorem codecDecode_fst_toNat (w : Word) : (codecDecode w).1.toNat = w.toNat / 2 ^ 18 % 16 := by
  simp [codecDecode, Nat.shiftRight_eq_div_pow]

theorem codecDecode_snd_toNat (w : Word) : (codecDecode w).2.toNat = w.toNat % 2 ^ 18 := by
  simp [codecDecode]

theorem codecEncode_toNat (op : Opcode) (opd : Operand) : (codecEncode op opd).toNat = op.toNat * 2 ^ 18 + opd.toNat := by
  simp only [codecEncode, toNat_append]; simp

@[simp] theorem codecDecode_codecEncode (op : Opcode) (opd : Operand) : codecDecode (codecEncode op opd) = (op, opd) := by
  refine Prod.ext (BitVec.eq_of_toNat_eq ?_) (BitVec.eq_of_toNat_eq ?_)
  · rw [codecDecode_fst_toNat, codecEncode_toNat]; dsimp only; omega
  · rw [codecDecode_snd_toNat, codecEncode_toNat]; dsimp only; omega

/-- What an encoded word decodes to is the opcode map's row for its opcode, read on its operand. -/
theorem decode_codecEncode (op : Opcode) (opd : Operand) :
    decode (codecEncode op opd) = decodeFields decodeReading op opd := by
  rw [decode_eq, codecDecode_codecEncode]

/-! ### Format I (R37) -/

theorem packI_toNat (imm : Imm) (r : Reg) : (packI imm r).toNat = imm.toNat * 4 + r.bits.toNat := toNat_append imm r.bits

/-- Format I has no excess bits: its two fields are the whole operand. -/
theorem packI_immField_rcField (opd : Operand) : packI (immField opd) (rcField opd) = opd := by
  apply BitVec.eq_of_toNat_eq
  rw [packI_toNat, immField_toNat, rcField_toNat]
  exact Nat.div_add_mod' _ _

/-! ### The obligations -/

/-- Settles O1: each half of DECODE, as a number. -/
theorem codecReadsOpcodeAndOperandBits : Obligations.CodecReadsOpcodeAndOperandBits :=
  fun w => ⟨codecDecode_fst_toNat w, codecDecode_snd_toNat w⟩

/-- Settles O3: the fields UNPACK reads from the operand are the immediate and the register sought. -/
theorem formatIFieldsFillTheOperand : Obligations.FormatIFieldsFillTheOperand := by
  refine ⟨packI_toNat, fun opd => ⟨immField opd, rcField opd, immField_toNat opd, rcField_toNat opd,
    packI_immField_rcField opd, ?_, ?_⟩⟩
  · exact (decode_codecEncode 1 opd).trans (decodeFields_1 _ opd)
  · exact (decode_codecEncode 4 opd).trans (decodeFields_4 _ opd)

/-- Settles O11: the rows of opcodes 0 and 11 to 15 do not mention the operand, and the encoder writes 0 for `hlt`'s. -/
theorem formatNOperandIsIgnored : Obligations.FormatNOperandIsIgnored := by
  refine ⟨fun opd => ?_, ?_⟩
  · simp [decode_codecEncode]
  · rw [encode, encodeWith, codecDecode_codecEncode, Instr.operand]

end Sys2Proof
end

section
/-! The no-ops (44_halt_and_nop.md sections 2 and 3): an instruction that does nothing hands its state to the epilogue as it
finds it, and the obligations on opcode 0 and on opcodes 11 to 14. -/

namespace Sys2Proof.Machine

/-- A word's opcode field selects the row of the opcode map, whatever its bits 31:22. -/
theorem decode_of_opcode {w : Word} {op : Opcode} (h : w.extractLsb' 18 4 = op) :
    decode w = decodeFields decodeReading op (codecDecode w).2 := by
  have hop : (codecDecode w).1 = op := h
  rw [decode_eq, hop]

theorem execute_of_isNoOp {i : Instr} (hi : isNoOp i = true) (s : State) : execute i s = ⟨s, .seq⟩ := by
  simp only [isNoOp, decide_eq_true_eq] at hi
  rcases hi with rfl | rfl | rfl | rfl | rfl <;> rfl

theorem exec_of_isNoOp {i : Instr} (hi : isNoOp i = true) (s : State) : exec i s = .next (epilogue ⟨s, .seq⟩) := by
  rw [exec_eq, execute_of_isNoOp hi, complete]

/-- The frame of a cycle whose execute phase does nothing: of the state only `pc` and the control bits move, sequentially. -/
theorem epilogue_seq_onlyAdvances {s : State} (h : s.halt = false) :
    SameRegs s (epilogue ⟨s, .seq⟩) ∧ SameMem s (epilogue ⟨s, .seq⟩) ∧ (epilogue ⟨s, .seq⟩).flag = s.flag ∧
      Advances s (epilogue ⟨s, .seq⟩) :=
  ⟨epilogue_readReg _, epilogue_memRead _, epilogue_flag _, advances_epilogue rfl rfl rfl h⟩

/-- Settles O27: opcode 0's row is `nop` whatever the operand, and `nop` leaves all to the epilogue. -/
theorem nopOnlyAdvances : Obligations.NopOnlyAdvances := by
  refine ⟨fun w hw => ?_, fun s h => ⟨_, exec_of_isNoOp rfl s, epilogue_seq_onlyAdvances h⟩⟩
  rw [decode_of_opcode hw, decodeFields_0]

/-- Settles O28: the rows of opcodes 11 to 14 do not mention the operand, and their instructions are no-ops as `nop` is, so that
one state is the answer of both. -/
theorem unrecognizedOpcodesOnlyAdvance : Obligations.UnrecognizedOpcodesOnlyAdvance := by
  refine ⟨fun w => ⟨fun hw => ?_, fun hw => ?_, fun hw => ?_, fun hw => ?_⟩, fun s h i hi => ?_⟩
  · rw [decode_of_opcode hw, decodeFields_11]
  · rw [decode_of_opcode hw, decodeFields_12]
  · rw [decode_of_opcode hw, decodeFields_13]
  · rw [decode_of_opcode hw, decodeFields_14]
  · have hNoOp : ∀ j ∈ [Instr.rsv11, .rsv12, .rsv13, .rsv14], isNoOp j = true := by decide
    obtain ⟨hregs, hmem, hflag, hadv⟩ := epilogue_seq_onlyAdvances h
    exact ⟨_, exec_of_isNoOp (hNoOp i hi) s, hregs, hmem, hflag, hadv, exec_of_isNoOp rfl s⟩

end Sys2Proof.Machine
end

section
/-! The codec's two directions (30_encoding.md): the fields of a packed operand and the packing of an operand's fields, what
the excess-bit check accepts, and the obligations on whole words. -/

namespace Sys2Proof

open Config

/-! ### UNPACK undoes PACK (R37 to R40) -/

@[simp] theorem immField_packI (imm : Imm) (r : Reg) : immField (packI imm r) = imm := by
  apply BitVec.eq_of_toNat_eq
  have := r.bits_lt
  rw [immField_toNat, packI_toNat]; omega

@[simp] theorem rcField_packI (imm : Imm) (r : Reg) : rcField (packI imm r) = r := by
  apply Reg.eq_of_bits
  have := r.bits_lt
  rw [rcField_toNat, packI_toNat]; omega

@[simp] theorem raField_packR (ra rb rc : Reg) : raField (packR ra rb rc) = ra := by
  apply Reg.eq_of_bits
  have := ra.bits_lt; have := rb.bits_lt; have := rc.bits_lt
  rw [raField_toNat, packR_toNat]; omega

@[simp] theorem rbField_packR (ra rb rc : Reg) : rbField (packR ra rb rc) = rb := by
  apply Reg.eq_of_bits
  have := ra.bits_lt; have := rb.bits_lt; have := rc.bits_lt
  rw [rbField_toNat, packR_toNat]; omega

@[simp] theorem rcField_packR (ra rb rc : Reg) : rcField (packR ra rb rc) = rc := by
  apply Reg.eq_of_bits
  have := rc.bits_lt
  rw [rcField_toNat, packR_toNat]; omega

@[simp] theorem addrField_packM (a : Addr) (r : Reg) : addrField (packM a r) = a := by
  apply BitVec.eq_of_toNat_eq
  have := r.bits_lt
  rw [addrField_toNat, packM_toNat]; omega

@[simp] theorem rcField_packM (a : Addr) (r : Reg) : rcField (packM a r) = r := by
  apply Reg.eq_of_bits
  have := r.bits_lt
  rw [rcField_toNat, packM_toNat]; omega

theorem targetEncodable_iff {t : Addr} : targetEncodable t = true ↔ t.toNat < 2 ^ widthJ := decide_eq_true_iff

theorem targetField_packJ {t : Addr} (h : targetEncodable t = true) : targetField (packJ t) = t := by
  apply BitVec.eq_of_toNat_eq
  rw [targetField_toNat, packJ_toNat]
  exact Nat.mod_eq_of_lt (targetEncodable_iff.mp h)

theorem packR_lt (ra rb rc : Reg) : (packR ra rb rc).toNat < 2 ^ widthR := by
  have := ra.bits_lt; have := rb.bits_lt; have := rc.bits_lt
  rw [packR_toNat, widthR]; omega

theorem packJ_lt {t : Addr} (h : targetEncodable t = true) : (packJ t).toNat < 2 ^ widthJ := by
  rw [packJ_toNat]; exact targetEncodable_iff.mp h

theorem packM_lt (a : Addr) (r : Reg) : (packM a r).toNat < 2 ^ widthM := by
  have := r.bits_lt
  rw [packM_toNat, widthM]; omega

/-! ### PACK undoes UNPACK on operands without excess bits -/

theorem packR_fields {f : Operand} (h : f.toNat < 2 ^ widthR) : packR (raField f) (rbField f) (rcField f) = f := by
  apply BitVec.eq_of_toNat_eq
  rw [widthR] at h
  rw [packR_toNat, raField_toNat, rbField_toNat, rcField_toNat]; omega

theorem packJ_targetField {f : Operand} (h : f.toNat < 2 ^ widthJ) : packJ (targetField f) = f := by
  apply BitVec.eq_of_toNat_eq
  rw [packJ_toNat, targetField_toNat]
  exact Nat.mod_eq_of_lt h

theorem packM_fields {f : Operand} (h : f.toNat < 2 ^ widthM) : packM (addrField f) (rcField f) = f := by
  apply BitVec.eq_of_toNat_eq
  rw [widthM] at h
  rw [packM_toNat, addrField_toNat, rcField_toNat]; omega

/-- Five bits hold nothing that the target field cannot. -/
theorem targetEncodable_targetField (f : Operand) : targetEncodable (targetField f) = true := by
  rw [targetEncodable_iff, targetField_toNat]; exact Nat.mod_lt _ (by decide)

/-! ### Words -/

/-- Bits 31:22 of an encoded word are 0, so HIGH_BITS (D3) does not matter to it. -/
theorem decodeWith_codecEncode (rd : DecodeReading) (op : Opcode) (opd : Operand) :
    decodeWith rd (codecEncode op opd) = decodeFields rd op opd := by
  rw [decodeWith, (Laws.CanonicalWord.codecEncode_upper op opd).1, if_neg (by simp), codecDecode_codecEncode]

/-- Settles O7: bits 31:22 of the encoded word are 0, the check passes on the placed fields of each format, and each field is
read back from its packed operand. -/
theorem everyWellFormedInstructionDecodesBack : Obligations.EveryWellFormedInstructionDecodesBack := by
  intro rd i hwf
  rw [encodeWith, decodeWith_codecEncode]
  have hR (ra rb rc) (mk : Operand → Instr) := unpackChecked_place rd mk (by decide) (packR_lt ra rb rc)
  have hJ {t} (ht : targetEncodable t = true) (mk : Operand → Instr) := unpackChecked_place rd mk (by decide) (packJ_lt ht)
  have hM (a r) (mk : Operand → Instr) := unpackChecked_place rd mk (by decide) (packM_lt a r)
  cases i with
  | ldi | cmp => simp [Instr.opcode, Instr.operand]
  | add | sub => simp [Instr.opcode, Instr.operand, hR]
  | jmp | jeq | jgt | jlt => simp [Instr.opcode, Instr.operand, hJ hwf, targetField_packJ hwf]
  | sto | lod => simp [Instr.opcode, Instr.operand, hM]
  | nop | rsv11 | rsv12 | rsv13 | rsv14 | hlt => rfl

/-! ### What the decoder accepts -/

/-- The operand bits that opcode `op`'s fields occupy, right-justified: all 18 where the format has no excess bits (R37 to R41,
D1). -/
def fieldBits (op : Opcode) : Nat :=
  if op.toNat = 2 ∨ op.toNat = 3 then widthR
  else if 5 ≤ op.toNat ∧ op.toNat ≤ 8 then widthJ
  else if op.toNat = 9 ∨ op.toNat = 10 then widthM
  else 18

theorem unpackChecked_ok_iff {k : Nat} {opd : Operand} {mk : Operand → Instr} {i : Instr} :
    unpackChecked decodeReading k opd mk = .ok i ↔ opd.toNat < 2 ^ k ∧ mk opd = i := by
  have hk : opd.toNat / 2 ^ k = 0 ↔ opd.toNat < 2 ^ k := Nat.div_eq_zero_iff_lt (by positivity)
  rw [unpackChecked_spec]
  by_cases h : opd.toNat < 2 ^ k <;> simp [hk, h]

theorem unpackChecked_error_iff {k : Nat} {opd : Operand} {mk : Operand → Instr} :
    unpackChecked decodeReading k opd mk = .error .addressOutOfRange ↔ 2 ^ k ≤ opd.toNat := by
  have hk : opd.toNat / 2 ^ k = 0 ↔ opd.toNat < 2 ^ k := Nat.div_eq_zero_iff_lt (by positivity)
  rw [unpackChecked_spec]
  by_cases h : opd.toNat < 2 ^ k <;> simp [hk, h]
  omega

/-- A row of the opcode map with an excess-bit check, on an operand that passes it. -/
theorem decode_codecEncode_of_checked {op : Opcode} {opd : Operand} {k : Nat} {mk : Operand → Instr}
    (hrow : decodeFields decodeReading op opd = unpackChecked decodeReading k opd mk) (h : opd.toNat < 2 ^ k) :
    decode (codecEncode op opd) = .ok (mk opd) := by
  rw [decode_codecEncode, hrow, unpackChecked_ok_iff.mpr ⟨h, rfl⟩]

/-- The opcode map rejects exactly the operands with a bit set outside the opcode's fields. -/
theorem decodeFields_error_iff {op : Opcode} {opd : Operand} :
    decodeFields decodeReading op opd = .error .addressOutOfRange ↔ 2 ^ fieldBits op ≤ opd.toNat := by
  have hlt : opd.toNat < 262144 := opd.isLt
  rcases opcode_cases op with rfl | rfl | rfl | rfl | rfl | rfl | rfl | rfl | rfl | rfl | rfl | rfl | rfl | rfl | rfl | rfl <;>
    simp [fieldBits, unpackChecked_error_iff, hlt]

/-- What the opcode map accepts is well-formed, is numbered `op`, and, where the format has fields, packs to the operand. -/
theorem wellFormed_opcode_operand_of_decodeFields {op : Opcode} {opd : Operand} {i : Instr}
    (h : decodeFields decodeReading op opd = .ok i) :
    i.wellFormed = true ∧ i.opcode = op ∧ (i ≠ .hlt → Machine.isNoOp i = false → i.operand decodeReading.justify = opd) := by
  rcases opcode_cases op with rfl | rfl | rfl | rfl | rfl | rfl | rfl | rfl | rfl | rfl | rfl | rfl | rfl | rfl | rfl | rfl <;>
    simp only [decodeFields_0, decodeFields_1, decodeFields_2, decodeFields_3, decodeFields_4, decodeFields_5, decodeFields_6,
      decodeFields_7, decodeFields_8, decodeFields_9, decodeFields_10, decodeFields_11, decodeFields_12, decodeFields_13,
      decodeFields_14, decodeFields_15, unpackChecked_ok_iff, Except.ok.injEq] at h
  · subst h; exact ⟨rfl, rfl, fun _ hn => absurd hn (by decide)⟩
  · subst h; exact ⟨rfl, rfl, fun _ _ => packI_immField_rcField opd⟩
  iterate 2 · obtain ⟨hlt, rfl⟩ := h; exact ⟨rfl, rfl, fun _ _ => packR_fields hlt⟩
  · subst h; exact ⟨rfl, rfl, fun _ _ => packI_immField_rcField opd⟩
  iterate 4 · obtain ⟨hlt, rfl⟩ := h; exact ⟨targetEncodable_targetField opd, rfl, fun _ _ => packJ_targetField hlt⟩
  iterate 2 · obtain ⟨hlt, rfl⟩ := h; exact ⟨rfl, rfl, fun _ _ => packM_fields hlt⟩
  iterate 4 · subst h; exact ⟨rfl, rfl, fun _ hn => absurd hn (by decide)⟩
  · subst h; exact ⟨rfl, rfl, fun hh => absurd rfl hh⟩

/-- The decoder accepts only well-formed instructions. -/
theorem wellFormed_of_decode {w : Word} {i : Instr} (h : decode w = .ok i) : i.wellFormed = true :=
  (wellFormed_opcode_operand_of_decodeFields (decode_eq w ▸ h)).1

/-- The rejected words, as numbers. -/
theorem decode_error_iff {w : Word} :
    decode w = .error .addressOutOfRange ↔ 2 ^ fieldBits (codecDecode w).1 ≤ w.toNat % 2 ^ 18 := by
  rw [decode_eq, decodeFields_error_iff, codecDecode_snd_toNat]

theorem codecEncode_codecDecode_toNat (w : Word) :
    (codecEncode (codecDecode w).1 (codecDecode w).2).toNat = w.toNat % 2 ^ 22 := by
  rw [codecEncode_toNat, codecDecode_fst_toNat, codecDecode_snd_toNat]; omega

theorem codecDecode_congr {v w : Word} (h : v.toNat % 2 ^ 22 = w.toNat % 2 ^ 22) : codecDecode v = codecDecode w := by
  refine Prod.ext (BitVec.eq_of_toNat_eq ?_) (BitVec.eq_of_toNat_eq ?_)
  · rw [codecDecode_fst_toNat, codecDecode_fst_toNat]; omega
  · rw [codecDecode_snd_toNat, codecDecode_snd_toNat]; omega

/-! ### The obligations -/

/-- Settles O2: ENCODE of DECODE keeps the low 22 bits, which are all of a word below 2^22. -/
theorem codecRoundTrips : Obligations.CodecRoundTrips := by
  refine ⟨fun op opd => ⟨codecEncode_toNat op opd, codecDecode_codecEncode op opd⟩,
    fun w => ⟨codecEncode_codecDecode_toNat w, ?_⟩⟩
  rw [← BitVec.toNat_inj, codecEncode_codecDecode_toNat]
  omega

/-- Settles O4: ENCODE's number with PACK's number of each format. -/
theorem encodedWordsAsTheFormulasGiveThem : Obligations.EncodedWordsAsTheFormulasGiveThem := by
  refine ⟨fun imm r => ?_, fun ra rb rc => ?_, fun t => ?_, fun a r => ?_, by decide⟩ <;>
    simp [encode, encodeWith, codecEncode_toNat, Instr.opcode, Instr.operand, decodeReading, placeFields, packI_toNat,
      packR_toNat, packJ_toNat, packM_toNat, Nat.add_assoc]

/-- Settles O5: with no excess bit the check passes, and the fields UNPACK reads are the ones sought. -/
theorem decoderReadsFieldsOfFormatsRJM : Obligations.DecoderReadsFieldsOfFormatsRJM := by
  refine ⟨fun opd h => ?_, fun opd h => ?_, fun opd h => ?_⟩
  · exact ⟨raField opd, rbField opd, rcField opd, by rw [raField_toNat]; omega, rbField_toNat opd, rcField_toNat opd,
      decode_codecEncode_of_checked (decodeFields_2 _ opd) h, decode_codecEncode_of_checked (decodeFields_3 _ opd) h⟩
  · exact ⟨targetField opd, by rw [targetField_toNat]; omega,
      decode_codecEncode_of_checked (decodeFields_5 _ opd) h, decode_codecEncode_of_checked (decodeFields_6 _ opd) h,
      decode_codecEncode_of_checked (decodeFields_7 _ opd) h, decode_codecEncode_of_checked (decodeFields_8 _ opd) h⟩
  · exact ⟨addrField opd, rcField opd, by rw [addrField_toNat]; omega, rcField_toNat opd,
      decode_codecEncode_of_checked (decodeFields_9 _ opd) h, decode_codecEncode_of_checked (decodeFields_10 _ opd) h⟩

/-- Settles O6: seven fixed words, evaluated. -/
theorem sampleWordsDecode : Obligations.SampleWordsDecode := by
  refine ⟨?_, ?_, ?_, ?_, ?_, ?_, ?_⟩ <;> decide

/-- Settles O8: an accepted word's instruction packs to the word's own opcode and operand. -/
theorem decodedInstructionEncodesBack : Obligations.DecodedInstructionEncodesBack := by
  intro w i h
  rw [decode_eq] at h
  obtain ⟨hwf, hop, hopd⟩ := wellFormed_opcode_operand_of_decodeFields h
  refine ⟨hwf, hop, fun hh hn => ?_⟩
  rw [encode, encodeWith, hop, hopd hh hn, codecEncode_codecDecode_toNat]

/-- Settles O9: only a jump can be ill-formed, and a target above 31 sets operand bit 5, an excess bit. -/
theorem illFormedInstructionHasNoWord : Obligations.IllFormedInstructionHasNoWord := by
  intro i hwf
  have hJ {t} (ht : targetEncodable t = false) : 2 ^ widthJ ≤ (packJ t).toNat := by
    rw [packJ_toNat, ← Nat.not_lt, ← targetEncodable_iff, ht]; simp
  rw [encode, encodeWith, decode_codecEncode, decodeFields_error_iff]
  cases i with
  | jmp | jeq | jgt | jlt => exact hJ hwf
  | _ => cases hwf

/-- Settles O10: an operand has a bit above its opcode's fields exactly when it is at least 2 to their width. -/
theorem decodeRejectsExactlyExcessBits : Obligations.DecodeRejectsExactlyExcessBits := by
  intro w
  rw [decode_error_iff, fieldBits, codecDecode_fst_toNat, widthR, widthJ, widthM]
  split_ifs <;> omega

/-- Settles O12: DECODE reads the low 22 bits only; a word of 2^22 or more has a bit set above them. -/
theorem highWordBitsIgnored : Obligations.HighWordBitsIgnored := by
  refine ⟨fun v w h => by rw [decode_eq, decode_eq, codecDecode_congr h], fun j x w h => ?_⟩
  have hhigh : w.extractLsb' 22 10 ≠ 0 := fun h0 => by
    have := congrArg BitVec.toNat h0
    simp [Nat.shiftRight_eq_div_pow] at this
    omega
  rw [decodeWith, if_pos ⟨rfl, hhigh⟩]

end Sys2Proof
end

section
/-! What an instruction can do (R54): one inversion lemma for the execute phase, the frame facts that follow from it, the end
of the cycle it leads to (R53), and that every move keeps the invariant. -/

namespace Sys2Proof.Machine

/-! ### The execute phase -/

/-- `i`, executed in `s`, gives register `r` the value `v` (R60, R61, R62, R72). -/
def WritesReg (i : Instr) (s : State) (r : Reg) (v : Word) : Prop :=
  (∃ imm, i = .ldi imm r ∧ v = immValue imm) ∨ (∃ ra rb, i = .add ra rb r ∧ v = s.readReg ra + s.readReg rb) ∨
    (∃ ra rb, i = .sub ra rb r ∧ v = s.readReg ra - s.readReg rb) ∨ ∃ a, i = .lod a r ∧ v = s.memRead a

/-- `i` is a conditional jump to `x` (R66 to R68). -/
def CondJump (i : Instr) (x : Addr) : Prop := i = .jeq x ∨ i = .jgt x ∨ i = .jlt x

/-- Everything the execute phase of `i` can hand from `s` to the epilogue: one write at most, and a request that transfers
control exactly when `transferTarget` does. `execute_effect` ties it to the model. -/
inductive Effect (i : Instr) (s : State) : Executed → Prop
  | reg {r : Reg} {v : Word} (hw : WritesReg i s r v) (hseq : transferTarget i s.flag = none) :
      Effect i s ⟨s.writeReg r v, .seq⟩
  | mem {a : Addr} {rs : Reg} (hi : i = .sto a rs) : Effect i s ⟨s.memWrite a (s.readReg rs), .seq⟩
  | cmp {imm : Imm} {r : Reg} (hi : i = .cmp imm r) : Effect i s ⟨s.setFlag (compareFlag cmpMode (s.readReg r) imm), .seq⟩
  | jump {x : Addr} (hi : i = .jmp x) : Effect i s ⟨s, .abs x⟩
  | branch {x : Addr} (hi : CondJump i x) (habs : transferTarget i s.flag = some x) : Effect i s ⟨s.setFlag .unset, .abs x⟩
  | pass (hseq : transferTarget i s.flag = none) : Effect i s ⟨s, .seq⟩
  | halt (hi : i = .hlt) : Effect i s ⟨s.setHalt, .seq⟩

/-- A conditional jump that transfers control clears the flag. -/
theorem execute_condJump_taken {i : Instr} {x y : Addr} {s : State} (hi : CondJump i x)
    (ht : transferTarget i s.flag = some y) : execute i s = ⟨s.setFlag .unset, .abs x⟩ := by
  rcases hi with rfl | rfl | rfl <;> exact branchIf_taken (by by_contra hne; simp [transferTarget, hne] at ht)

/-- A conditional jump that does not is a no-op. -/
theorem execute_condJump_not_taken {i : Instr} {x : Addr} {s : State} (hi : CondJump i x)
    (ht : transferTarget i s.flag = none) : execute i s = ⟨s, .seq⟩ := by
  rcases hi with rfl | rfl | rfl <;> exact branchIf_not_taken fun he => by simp [transferTarget, he] at ht

/-- A conditional jump transfers control to its target or nowhere. -/
theorem transferTarget_condJump {i : Instr} {x : Addr} (hi : CondJump i x) (f : Flag) :
    transferTarget i f = some x ∨ transferTarget i f = none := by
  rcases hi with rfl | rfl | rfl <;> simp only [transferTarget] <;> split <;> simp

theorem execute_effect_of_condJump {i : Instr} {x : Addr} (hi : CondJump i x) (s : State) : Effect i s (execute i s) := by
  rcases transferTarget_condJump hi s.flag with ht | ht
  · rw [execute_condJump_taken hi ht]; exact .branch hi ht
  · rw [execute_condJump_not_taken hi ht]; exact .pass ht

theorem execute_effect (i : Instr) (s : State) : Effect i s (execute i s) := by
  cases i with
  | ldi imm rd => exact .reg (.inl ⟨imm, rfl, rfl⟩) rfl
  | add ra rb rc => exact .reg (.inr (.inl ⟨ra, rb, rfl, rfl⟩)) rfl
  | sub ra rb rc => exact .reg (.inr (.inr (.inl ⟨ra, rb, rfl, rfl⟩))) rfl
  | lod a rd => exact .reg (.inr (.inr (.inr ⟨a, rfl, rfl⟩))) rfl
  | sto a rs => exact .mem rfl
  | cmp imm r => exact .cmp rfl
  | jmp x => exact .jump rfl
  | jeq x => exact execute_effect_of_condJump (.inl rfl) s
  | jgt x => exact execute_effect_of_condJump (.inr (.inl rfl)) s
  | jlt x => exact execute_effect_of_condJump (.inr (.inr rfl)) s
  | nop | rsv11 | rsv12 | rsv13 | rsv14 => exact .pass rfl
  | hlt => exact .halt rfl

/-! ### What each effect leaves unchanged -/

section Effect
variable {i : Instr} {s : State} {e : Executed}

theorem Effect.pc_eq (h : Effect i s e) : e.state.pc = s.pc := by cases h <;> rfl

theorem Effect.runActive_eq (h : Effect i s e) : e.state.runActive = s.runActive := by cases h <;> rfl

theorem Effect.halt_eq (h : Effect i s e) (hi : i ≠ .hlt) : e.state.halt = s.halt := by
  cases h with
  | halt hh => exact absurd hh hi
  | _ => rfl

theorem Effect.next_of_some (h : Effect i s e) {x : Addr} (ht : transferTarget i s.flag = some x) : e.next = .abs x := by
  cases h with
  | reg _ hseq | pass hseq => simp [hseq] at ht
  | mem hi | cmp hi | halt hi => subst hi; simp [transferTarget] at ht
  | jump hi => subst hi; exact congrArg Next.abs (Option.some.inj ht)
  | branch _ habs => exact congrArg Next.abs (Option.some.inj (habs.symm.trans ht))

theorem Effect.next_of_none (h : Effect i s e) (ht : transferTarget i s.flag = none) : e.next = .seq := by
  cases h with
  | jump hi => subst hi; simp [transferTarget] at ht
  | branch _ habs => simp [habs] at ht
  | _ => rfl

/-- A changed register is the destination of one of the four instructions that write one, and nothing else has changed. -/
theorem Effect.reg_of_ne (h : Effect i s e) {r : Reg} (hne : e.state.readReg r ≠ s.readReg r) :
    ∃ v, WritesReg i s r v ∧ transferTarget i s.flag = none ∧ e.state = s.writeReg r v := by
  cases h with
  | @reg q v hw hseq =>
    have hr : r = q := by by_contra hrq; exact hne (State.writeReg_readReg_other s q v hrq)
    subst hr
    exact ⟨v, hw, hseq, rfl⟩
  | _ => exact absurd rfl hne

/-- A changed memory word is the one `sto` writes, and nothing else has changed. -/
theorem Effect.mem_of_ne (h : Effect i s e) {a : Addr} (hne : e.state.memRead a ≠ s.memRead a) :
    ∃ rs, i = .sto a rs ∧ e.state = s.memWrite a (s.readReg rs) := by
  cases h with
  | @mem b rs hi =>
    have ha : a = b := by by_contra hab; exact hne (State.memWrite_memRead_other s _ hab)
    subst ha
    exact ⟨rs, hi, rfl⟩
  | _ => exact absurd rfl hne

/-- The flag changes by `cmp`, which never leaves it UNSET, or by a conditional jump that is taken, which clears it. -/
theorem Effect.flag_of_ne (h : Effect i s e) (hne : e.state.flag ≠ s.flag) :
    (∃ imm r, i = .cmp imm r ∧ e.state.flag ≠ .unset) ∨
      ∃ x, CondJump i x ∧ transferTarget i s.flag = some x ∧ e.state.flag = .unset := by
  cases h with
  | @cmp imm r hi => exact .inl ⟨imm, r, hi, flagOfDifference_ne_unset _⟩
  | @branch x hi habs => exact .inr ⟨x, hi, habs, rfl⟩
  | _ => exact absurd rfl hne

theorem Effect.mem_wf (h : Effect i s e) (hwf : s.mem.wf = true) : e.state.mem.wf = true := by
  cases h with
  | mem => exact State.memWrite_wf _ _ hwf
  | _ => exact hwf

end Effect

/-! ### The end of the cycle -/

/-- No instruction faults or is refused: `exec` answers what the epilogue leaves. -/
theorem exec_next (i : Instr) (s : State) : exec i s = .next (epilogue (execute i s)) := exec_eq i s

theorem eq_epilogue_of_exec {i : Instr} {s t : State} (h : exec i s = .next t) : t = epilogue (execute i s) :=
  (Host.Outcome.next.inj ((exec_next i s).symm.trans h)).symm

/-- Every epilogue leaves `halt` = 0 (R57). -/
@[simp] theorem epilogue_halt (e : Executed) : (epilogue e).halt = false := by
  rcases closeCycle_cases e with ⟨-, h⟩ | ⟨hh, _, -, h⟩ | ⟨-, -, -, h⟩ | ⟨hh, -, -, h⟩ <;> rw [epilogue, h]
  · rfl
  · exact hh
  · rfl
  · exact hh

/-- Everything the end of an instruction's cycle can be, between cycles with `halt` = 0: `hlt`'s end of the run, the target,
the end of the run at the last address, or the next address (10_state.md section 4). -/
theorem closeCycle_execute_cases (i : Instr) {s : State} (h : s.halt = false) :
    (i = .hlt ∧ closeCycle (execute i s) = ⟨s.endRun, some (.terminated .byHalt)⟩) ∨
    (∃ x, transferTarget i s.flag = some x ∧ closeCycle (execute i s) = ⟨(execute i s).state.setPc x, none⟩) ∨
    (i ≠ .hlt ∧ transferTarget i s.flag = none ∧ s.pc.toNat = 63 ∧
      closeCycle (execute i s) = ⟨(execute i s).state.endRun, some (.terminated .byEndOfMemory)⟩) ∨
    (i ≠ .hlt ∧ transferTarget i s.flag = none ∧ s.pc.toNat < 63 ∧
      closeCycle (execute i s) = ⟨(execute i s).state.setPc (s.pc + 1), none⟩) := by
  by_cases hi : i = .hlt
  · subst hi; exact .inl ⟨rfl, rfl⟩
  have heff := execute_effect i s
  have hh := (heff.halt_eq hi).trans h
  have hpc := heff.pc_eq
  cases ht : transferTarget i s.flag with
  | some x =>
    have hc : closeCycle ⟨(execute i s).state, .abs x⟩ = _ := closeCycle_abs hh
    rw [← heff.next_of_some ht] at hc
    exact .inr (.inl ⟨x, rfl, hc⟩)
  | none =>
    have hc : closeCycle ⟨(execute i s).state, .seq⟩ = _ := closeCycle_seq hh
    rw [← heff.next_of_none ht, hpc] at hc
    by_cases h63 : s.pc = Config.lastAddr
    · rw [if_pos h63] at hc
      exact .inr (.inr (.inl ⟨hi, rfl, congrArg BitVec.toNat h63, hc⟩))
    · rw [if_neg h63] at hc
      have hne : s.pc.toNat ≠ 63 := fun he => h63 (BitVec.eq_of_toNat_eq he)
      exact .inr (.inr (.inr ⟨hi, rfl, by omega, hc⟩))

/-! ### The invariant -/

theorem State.inv_iff {s : State} : s.inv = true ↔ s.mem.wf = true ∧ s.halt = false := by
  simp [State.inv]

theorem exec_keeps_inv {i : Instr} {s t : State} (hs : s.inv = true) (h : exec i s = .next t) : t.inv = true := by
  rw [State.inv_iff] at hs ⊢
  rw [eq_epilogue_of_exec h, epilogue_mem]
  exact ⟨(execute_effect i s).mem_wf hs.1, epilogue_halt _⟩

theorem step_keeps_inv {s t : State} (hs : s.inv = true) (h : step s = .next t) : t.inv = true := by
  rcases step_cases h with ⟨-, rfl⟩ | ⟨i, -, -, he⟩ | ⟨e, -, -, rfl⟩
  · exact hs
  · exact exec_keeps_inv hs he
  · exact hs

theorem hostMove_keeps_inv {op : HostOp} {s t : State} (hs : s.inv = true) (h : hostMove op s = .next t) :
    t.inv = true := by
  obtain ⟨-, ⟨-, rfl⟩ | ⟨ws, -, hlen, rfl⟩ | ⟨-, rfl⟩ | ⟨-, rfl⟩⟩ := hostMove_cases h
  · rfl
  · rw [State.inv_iff] at hs ⊢
    exact ⟨Memory.wf_load ws hs.1 (by omega), hs.2⟩
  · exact hs
  · exact hs

/-- Settles O54: CREATE's memory is empty and its `halt` 0. -/
theorem resetMeetsTheInvariant : Obligations.ResetMeetsTheInvariant := State.inv_iff.mpr ⟨State.reset_mem_wf, rfl⟩

/-- Settles O55: the engine's step and the host's move each keep it, the engine by one write at most per instruction and by an
epilogue that clears `halt`. -/
theorem everyMoveKeepsTheInvariant : Obligations.EveryMoveKeepsTheInvariant := by
  intro e s t hs h
  cases e with
  | cycle => exact step_keeps_inv hs h
  | host op => exact hostMove_keeps_inv hs h

/-- Settles O56, by induction on the moves that lead there from CREATE. -/
theorem reachableStatesMeetTheInvariant : Obligations.ReachableStatesMeetTheInvariant := by
  intro s hs
  have hinv : s.inv = true := by
    induction hs with
    | reset => exact resetMeetsTheInvariant
    | move e _ h ih => exact everyMoveKeepsTheInvariant e _ _ ih h
  obtain ⟨hwf, hhalt⟩ := State.inv_iff.mp hinv
  exact ⟨hinv, hhalt, hwf⟩

end Sys2Proof.Machine
end

section
/-! The instructions (41 to 44): each one's value, frame and advance, by the epilogue of what its execute phase hands over. -/

namespace Sys2Proof.Machine

/-! ### Frames -/

/-- An instruction that wrote one register and asked for SEQ. -/
theorem exec_writesReg {i : Instr} {r : Reg} {v : Word} {s : State} (hi : execute i s = ⟨s.writeReg r v, .seq⟩)
    (h : s.halt = false) : ∃ t, exec i s = .next t ∧ t.readReg r = v ∧ SameRegsBut r s t ∧ SameMem s t ∧
      t.flag = s.flag ∧ Advances s t := by
  refine ⟨_, exec_next i s, ?_⟩
  rw [hi]
  refine ⟨by simp, fun q hq => by simp [hq], fun a => by simp, by simp, advances_epilogue rfl rfl rfl h⟩

/-- A conditional jump, taken and not (R66 to R68). -/
theorem exec_branchIf {i : Instr} {code : Flag} {target : Addr} {s : State} (hi : execute i s = branchIf code target s)
    (h : s.halt = false) : ∃ t, exec i s = .next t ∧ SameRegs s t ∧ SameMem s t ∧
      (s.flag.code = code.code → ContinuesAt target s t ∧ t.flag.code = 0) ∧
      (s.flag.code ≠ code.code → Advances s t ∧ t.flag = s.flag) := by
  refine ⟨_, exec_next i s, ?_⟩
  rw [hi]
  by_cases hf : s.flag = code
  · have hc : (s.setFlag .unset).halt = false := h
    rw [branchIf_taken hf, epilogue_abs hc]
    exact ⟨fun _ => rfl, fun _ => rfl, fun _ => ⟨⟨rfl, rfl, rfl⟩, rfl⟩, fun hne => absurd (congrArg Flag.code hf) hne⟩
  · rw [branchIf_not_taken hf]
    obtain ⟨hregs, hmem, hflag, hadv⟩ := epilogue_seq_onlyAdvances h
    exact ⟨hregs, hmem, fun he => absurd (Flag.code_inj he) hf, fun _ => ⟨hadv, hflag⟩⟩

/-! ### Move and arithmetic (41) -/

theorem immValue_toNat (imm : Imm) : (immValue imm).toNat = imm.toNat := by
  simp only [immValue, BitVec.toNat_setWidth]; omega

/-- Settles O13: the register written is the zero-extended immediate. -/
theorem ldiLoadsZeroExtendedImmediate : Obligations.LdiLoadsZeroExtendedImmediate := by
  intro imm rd s h
  obtain ⟨t, he, hv, hframe⟩ := exec_writesReg (i := .ldi imm rd) (executeLdi_eq s rd imm) h
  exact ⟨t, he, by rw [hv, immValue_toNat], hframe⟩

/-- Settles O14: the sum of bit vectors wraps. -/
theorem addWritesWrappedSum : Obligations.AddWritesWrappedSum := by
  intro ra rb rc s h
  obtain ⟨t, he, hv, hframe⟩ := exec_writesReg (i := .add ra rb rc) (executeAdd_eq s ra rb rc) h
  exact ⟨t, he, by rw [hv, BitVec.toNat_add], hframe⟩

/-- Settles O15: the difference of bit vectors wraps. -/
theorem subWritesWrappedDifference : Obligations.SubWritesWrappedDifference := by
  intro ra rb rc s h
  obtain ⟨t, he, hv, hframe⟩ := exec_writesReg (i := .sub ra rb rc) (executeSub_eq s ra rb rc) h
  refine ⟨t, he, ?_, hframe⟩
  rw [hv, BitVec.toNat_sub]
  omega

/-- Settles O16: the sum and difference of bit vectors are the two's complement ones; a changed register was written by one of
four instructions, and a flag that is set was set by `cmp`. -/
theorem addSubAreTheOnlyArithmetic : Obligations.AddSubAreTheOnlyArithmetic := by
  refine ⟨fun ra rb rc s => ⟨_, _, exec_next _ s, exec_next _ s, ?_, ?_, ?_, ?_⟩, fun i s t r h hne => ?_,
    fun i s t h hne hset => ?_⟩
  · rw [epilogue_readReg]; simp [execute, BitVec.toInt_add]
  · rw [epilogue_readReg]; simp [execute, BitVec.toInt_sub]
  · exact epilogue_flag _
  · exact epilogue_flag _
  · rw [eq_epilogue_of_exec h, epilogue_readReg] at hne ⊢
    obtain ⟨v, hw, -, hs⟩ := (execute_effect i s).reg_of_ne hne
    rw [hs, State.writeReg_readReg_self]
    rcases hw with ⟨imm, hi, rfl⟩ | hadd | hsub | hlod
    · exact .inl ⟨imm, hi, immValue_toNat imm⟩
    · exact .inr (.inl hadd)
    · exact .inr (.inr (.inl hsub))
    · exact .inr (.inr (.inr hlod))
  · rw [eq_epilogue_of_exec h, epilogue_flag] at hne hset
    rcases (execute_effect i s).flag_of_ne hne with ⟨imm, r, hi, -⟩ | ⟨x, -, -, hunset⟩
    · exact ⟨imm, r, hi⟩
    · exact absurd hunset hset

/-! ### Compare and jump (42) -/

/-- Settles O17: the sign of the exact difference is the unsigned comparison. -/
theorem cmpSetsFlagByUnsignedComparison : Obligations.CmpSetsFlagByUnsignedComparison := by
  intro imm r s h
  refine ⟨_, exec_next _ s, ?_⟩
  have hflag : (epilogue (execute (.cmp imm r) s)).flag =
      flagOfDifference ((s.readReg r).toNat - imm.toNat : Int) := epilogue_flag _
  have hcode {f : Flag} : (epilogue (execute (.cmp imm r) s)).flag.code = f.code ↔
      flagOfDifference ((s.readReg r).toNat - imm.toNat : Int) = f := by
    rw [hflag]; exact ⟨Flag.code_inj, congrArg Flag.code⟩
  refine ⟨(hcode (f := .gt)).trans ?_, (hcode (f := .eq)).trans ?_, (hcode (f := .lt)).trans ?_, fun h0 => ?_,
    epilogue_readReg _, epilogue_memRead _, advances_epilogue rfl rfl rfl h⟩
  · rw [flagOfDifference_gt]; omega
  · rw [flagOfDifference_eq]; omega
  · rw [flagOfDifference_lt]; omega
  · exact flagOfDifference_ne_unset _ ((hcode (f := .unset)).mp h0)

/-- Below 2^31 the two's complement reading of a word is its unsigned one, above it is 2^32 less. -/
theorem toInt_cases (x : Word) : (x.toNat < 2 ^ 31 ∧ x.toInt = x.toNat) ∨ (2 ^ 31 ≤ x.toNat ∧ x.toInt = x.toNat - 2 ^ 32) := by
  rw [BitVec.toInt_eq_toNat_cond]
  split <;> omega

/-- The 32-bit difference, taken as two's complement, is the exact one but where that is 2^31 or more. -/
theorem cmpDifference_wrap32 (x : Word) (imm : Imm) :
    ((x.toNat : Int) - imm.toNat < 2 ^ 31 ∧ cmpDifference .wrap32 x imm = x.toNat - imm.toNat) ∨
      ((2 ^ 31 : Int) ≤ x.toNat - imm.toNat ∧ cmpDifference .wrap32 x imm = x.toNat - imm.toNat - 2 ^ 32) := by
  have hsub : ((x - immValue imm).toNat : Int) = ((x.toNat : Int) - imm.toNat) % 2 ^ 32 := by
    rw [BitVec.toNat_sub, immValue_toNat]; omega
  have hint : cmpDifference .wrap32 x imm = (x - immValue imm).toInt := rfl
  rcases toInt_cases (x - immValue imm) with ⟨hlt, h⟩ | ⟨hge, h⟩ <;> omega

/-- Settles O18: below 2^31 the three differences are one number; above, where the immediate is far smaller, the register as
two's complement is negative and the exact difference positive. -/
theorem cmpReadingsAgreeBelowSignBit : Obligations.CmpReadingsAgreeBelowSignBit := by
  have hexact (x : Word) (imm : Imm) : cmpDifference .exact x imm = x.toNat - imm.toNat := rfl
  have hcast (x : Word) (imm : Imm) : cmpDifference .cast32 x imm = x.toInt - imm.toNat := rfl
  refine ⟨fun x imm hx => ⟨congrArg flagOfDifference ?_, congrArg flagOfDifference ?_⟩, fun x imm hx =>
    ⟨flagOfDifference_gt.mpr ?_, flagOfDifference_lt.mpr ?_, flagOfDifference_lt.trans ?_⟩⟩
  · have := cmpDifference_wrap32 x imm
    rw [hexact]; omega
  · have := toInt_cases x
    rw [hcast, hexact]; omega
  · rw [hexact]; omega
  · have := toInt_cases x
    rw [hcast]; omega
  · have := cmpDifference_wrap32 x imm
    omega

/-- Settles O19: the epilogue sets `pc` to the target and does nothing more. -/
theorem jmpLandsOnItsTarget : Obligations.JmpLandsOnItsTarget := by
  intro target s h
  refine ⟨s.setPc target, ?_, ⟨rfl, rfl, rfl⟩, fun _ => rfl, fun _ => rfl, rfl⟩
  rw [exec_next, execute, executeJmp_eq, epilogue_abs h]

/-- Settles O20: `jeq` tests for EQ, code 2. -/
theorem jeqTakenExactlyOnEqual : Obligations.JeqTakenExactlyOnEqual :=
  fun target s h => exec_branchIf (i := .jeq target) (executeJeq_eq s target) h

/-- Settles O21: `jgt` tests for GT, code 1. -/
theorem jgtTakenExactlyOnGreater : Obligations.JgtTakenExactlyOnGreater :=
  fun target s h => exec_branchIf (i := .jgt target) (executeJgt_eq s target) h

/-- Settles O22: `jlt` tests for LT, code 3. -/
theorem jltTakenExactlyOnLess : Obligations.JltTakenExactlyOnLess :=
  fun target s h => exec_branchIf (i := .jlt target) (executeJlt_eq s target) h

/-- From an UNSET flag no conditional jump is taken. -/
theorem transferTarget_unset {i : Instr} {x : Addr} (hi : CondJump i x) : transferTarget i .unset = none := by
  rcases hi with rfl | rfl | rfl <;> rfl

/-- Settles O23: `cmp` leaves GT, EQ or LT, which one jump tests for, and that jump clears the flag. -/
theorem oneConditionalJumpTakenAfterCmp : Obligations.OneConditionalJumpTakenAfterCmp := by
  intro imm r a b c s t h
  have hset : t.flag ≠ .unset := by
    rw [eq_epilogue_of_exec h, epilogue_flag]; exact flagOfDifference_ne_unset _
  refine ⟨?_, fun i hi x u hx hu => ?_⟩
  · cases hf : t.flag with
    | unset => exact absurd hf hset
    | gt | eq | lt => rfl
  · have hcond : ∃ y, CondJump i y := by
      simp only [List.mem_cons, List.not_mem_nil, or_false] at hi
      rcases hi with rfl | rfl | rfl
      · exact ⟨a, .inl rfl⟩
      · exact ⟨b, .inr (.inl rfl)⟩
      · exact ⟨c, .inr (.inr rfl)⟩
    obtain ⟨y, hy⟩ := hcond
    have hunset : u.flag = .unset := by
      rw [eq_epilogue_of_exec hu, epilogue_flag, execute_condJump_taken hy hx]; rfl
    rw [hunset]
    exact ⟨rfl, rfl, rfl⟩

/-! ### Store, load and halt (43, 44) -/

/-- Settles O24: read after write, at the address stored to and elsewhere. -/
theorem stoReplacesOneWord : Obligations.StoReplacesOneWord := by
  intro a rs s hwf h
  refine ⟨_, exec_next _ s, ?_, rfl, fun b hb => ?_, fun r => epilogue_readReg _ r, epilogue_flag _,
    advances_epilogue rfl rfl rfl h⟩
  · rw [epilogue_memRead]; exact State.memWrite_memRead_self a _ hwf
  · rw [epilogue_memRead]; exact State.memWrite_memRead_other s _ hb

/-- Settles O25: the register written is the memory word. -/
theorem lodReadsOneWord : Obligations.LodReadsOneWord :=
  fun a rd s h => exec_writesReg (executeLod_eq s rd a) h

/-- Settles O26: opcode 15's row is `hlt` whatever the operand, and the epilogue finds `halt` = 1. -/
theorem hltEndsTheRun : Obligations.HltEndsTheRun := by
  refine ⟨fun w hw => by rw [decode_of_opcode hw, decodeFields_15], fun s => ⟨s.endRun, exec_next .hlt s, ?_⟩⟩
  exact ⟨⟨rfl, rfl, rfl⟩, fun _ => rfl, fun _ => rfl, rfl, rfl⟩

end Sys2Proof.Machine
end

section
/-! The cycle (40_execution_cycle.md, 10_state.md section 4, 60_exceptions.md): what a step is, where it leads, how a run ends,
and which move writes what. -/

namespace Sys2Proof.Machine

/-! ### Steps -/

/-- Settles O29: the decoder accepts only well-formed instructions, and the cycle is `exec`. -/
theorem stepRunsTheDecodedInstruction : Obligations.StepRunsTheDecodedInstruction :=
  fun _ _ ha h => ⟨wellFormed_of_decode h, step_of_ok ha h⟩

theorem step_of_idle {s : State} (h : s.runActive = false) : step s = .next s := by
  simp [step, h, idle]

/-- Settles O30: the two equations of an idle step. -/
theorem idleEngineChangesNothing : Obligations.IdleEngineChangesNothing :=
  fun _ h => ⟨step_of_idle h, stepReport_idle h⟩

/-- Settles O32: the frame of `State.takeException`. -/
theorem faultEndsRunAndKeepsState : Obligations.FaultEndsRunAndKeepsState := by
  intro w hw s ha hfetch
  have he : decode s.fetch = .error .addressOutOfRange := hfetch ▸ hw
  refine ⟨_, step_of_error ha he, fun _ => rfl, fun _ => rfl, rfl, rfl, rfl, rfl, ?_⟩
  rw [stepReport_of_error ha he, hfetch]

/-- Settles O33: a set bit above the fields makes the operand at least 2 to their width, and the decoder rejects it. -/
theorem excessBitFaultsBeforeExecuting : Obligations.ExcessBitFaultsBeforeExecuting := by
  intro w k hk hbit hop
  refine faultEndsRunAndKeepsState w (decode_error_iff.mpr ?_)
  have hfields : fieldBits (codecDecode w).1 ≤ k := by
    have hdef : (codecDecode w).1 = w.extractLsb' 18 4 := rfl
    rw [hdef]
    rcases hop with ⟨h | h, hk⟩ | ⟨h | h | h | h, hk⟩ | ⟨h | h, hk⟩ <;> rw [h] <;> exact hk
  have hset : (w.toNat % 2 ^ 18).testBit k = true := by
    rw [Nat.testBit_mod_two_pow]; simp only [hk, decide_true, Bool.true_and]; exact hbit
  exact (Nat.pow_le_pow_right (by decide) hfields).trans (Nat.ge_two_pow_of_testBit hset)

/-- Settles O34: an idle step, an instruction and the exception each answer a next state. -/
theorem engineNeverStops : Obligations.EngineNeverStops := by
  intro s
  cases ha : s.runActive with
  | false => exact ⟨s, step_of_idle ha⟩
  | true =>
    cases hd : decode s.fetch with
    | ok i => exact ⟨_, (step_of_ok ha hd).trans (exec_next i s)⟩
    | error e => exact ⟨_, step_of_error ha hd⟩

/-! ### Where an instruction leads -/

theorem instrReport_eq (i : Instr) (s : State) : instrReport i s = (closeCycle (execute i s)).report := rfl

theorem epilogue_eq (e : Executed) : epilogue e = (closeCycle e).state := rfl

@[simp] theorem execute_runActive (i : Instr) (s : State) : (execute i s).state.runActive = s.runActive :=
  (execute_effect i s).runActive_eq

theorem transferTarget_hlt (f : Flag) : transferTarget .hlt f = none := rfl

theorem addr_succ_toNat {a : Addr} (h : a.toNat < 63) : (a + 1).toNat = a.toNat + 1 := by
  have h1 : (1 : Addr).toNat = 1 := rfl
  rw [BitVec.toNat_add, h1]; omega

/-- Settles O35: the rows of the table are the ways an instruction's cycle can end, which exclude each other. -/
theorem nextPcFollowsTheTable : Obligations.NextPcFollowsTheTable := by
  intro i s h
  refine ⟨_, exec_next i s, epilogue_halt _, ?_⟩
  rw [epilogue_eq, instrReport_eq]
  have hact := execute_runActive i s
  rcases closeCycle_execute_cases i h with ⟨rfl, hc⟩ | ⟨x, ht, hc⟩ | ⟨hi, ht, hpc, hc⟩ | ⟨hi, ht, hpc, hc⟩ <;> rw [hc]
  · refine ⟨fun _ => ⟨rfl, rfl, rfl⟩, fun x hx => ?_, fun hi => absurd rfl hi, fun hi => absurd rfl hi⟩
    simp [transferTarget_hlt] at hx
  · refine ⟨fun hi => ?_, fun y hy => ⟨?_, hact, rfl⟩, fun _ hn => ?_, fun _ hn => ?_⟩
    · subst hi; simp [transferTarget_hlt] at ht
    · exact Option.some.inj (ht.symm.trans hy)
    · simp [ht] at hn
    · simp [ht] at hn
  · refine ⟨fun hi' => absurd hi' hi, fun x hx => ?_, fun _ _ hlt => ?_, fun _ _ _ => ⟨rfl, rfl, rfl⟩⟩
    · simp [ht] at hx
    · omega
  · refine ⟨fun hi' => absurd hi' hi, fun x hx => ?_, fun _ _ _ => ⟨addr_succ_toNat hpc, hact, rfl⟩, fun _ _ h63 => ?_⟩
    · simp [ht] at hx
    · omega

/-- Settles O37: both end the run, which leaves one state whatever the cause. -/
theorem terminationsLeaveTheSameState : Obligations.TerminationsLeaveTheSameState := by
  intro s h hpc
  have h63 : s.pc = Config.lastAddr := BitVec.eq_of_toNat_eq hpc
  have hnop : closeCycle (execute .nop s) = ⟨s.endRun, some (.terminated .byEndOfMemory)⟩ := by
    rw [execute_of_isNoOp rfl, closeCycle_seq h, if_pos h63]
  refine ⟨s.endRun, exec_next .hlt s, ?_, rfl, ?_⟩
  · rw [exec_next, epilogue_eq, hnop]
  · rw [instrReport_eq, hnop]

/-- Settles O38: `hlt` sets `halt` and nothing else, and the epilogue clears it. -/
theorem haltSeenOnlyBeforeTheEpilogue : Obligations.HaltSeenOnlyBeforeTheEpilogue :=
  ⟨fun _ => ⟨rfl, rfl, rfl⟩, epilogue_halt⟩

/-! ### How a run ends and goes on -/

/-- Everything a step of a run can lead to, between cycles with `halt` = 0, with its report: the fault, `hlt`, a transfer of
control, the end of memory, or the next address. `cycleTo_of_step` ties it to the model. -/
inductive CycleTo (s : State) : State → Prop
  | fault {e : ExecutionError} (hd : decode s.fetch = .error e) (hr : stepReport s = some (.faulted e s.pc s.fetch)) :
      CycleTo s { s with runActive := false }
  | halt (hd : decode s.fetch = .ok .hlt) (hr : stepReport s = some (.terminated .byHalt)) : CycleTo s s.endRun
  | transfer {i : Instr} {x : Addr} (hd : decode s.fetch = .ok i) (ht : transferTarget i s.flag = some x)
      (hr : stepReport s = none) : CycleTo s ((execute i s).state.setPc x)
  | last {i : Instr} (hd : decode s.fetch = .ok i) (hi : i ≠ .hlt) (ht : transferTarget i s.flag = none)
      (hpc : s.pc.toNat = 63) (hr : stepReport s = some (.terminated .byEndOfMemory)) : CycleTo s (execute i s).state.endRun
  | advance {i : Instr} (hd : decode s.fetch = .ok i) (ht : transferTarget i s.flag = none) (hpc : s.pc.toNat < 63)
      (hr : stepReport s = none) : CycleTo s ((execute i s).state.setPc (s.pc + 1))

theorem cycleTo_of_step {s t : State} (ha : s.runActive = true) (hh : s.halt = false) (h : step s = .next t) : CycleTo s t := by
  rcases step_cases h with ⟨hi, -⟩ | ⟨i, -, hd, he⟩ | ⟨e, -, hd, rfl⟩
  · simp [ha] at hi
  · have hr := stepReport_of_ok ha hd
    rw [instrReport_eq] at hr
    rw [eq_epilogue_of_exec he, epilogue_eq]
    rcases closeCycle_execute_cases i hh with ⟨rfl, hc⟩ | ⟨x, hx, hc⟩ | ⟨hi, hx, hpc, hc⟩ | ⟨hi, hx, hpc, hc⟩ <;>
      rw [hc] at hr ⊢
    · exact .halt hd hr
    · exact .transfer hd hx hr
    · exact .last hd hi hx hpc hr
    · exact .advance hd hx hpc hr
  · exact .fault hd (stepReport_of_error ha hd)

/-- Settles O36: of the ways a step of a run can be, three end it. -/
theorem runEndsInThreeWaysOnly : Obligations.RunEndsInThreeWaysOnly := by
  intro s t ha hh h hend
  cases cycleTo_of_step ha hh h with
  | fault hd hr => exact .inl ⟨_, hd, rfl, hr⟩
  | halt hd hr => exact .inr (.inl ⟨hd, rfl, rfl, hr⟩)
  | last hd hi ht hpc hr => exact .inr (.inr ⟨_, hd, hi, ht, hpc, rfl, rfl, hr⟩)
  | transfer | advance => simp [ha] at hend

/-- A well-formed instruction transfers control to the lower half only (R38). -/
theorem transferTarget_lt {i : Instr} {f : Flag} {x : Addr} (hwf : i.wellFormed = true) (h : transferTarget i f = some x) :
    x.toNat < 32 := by
  cases i with
  | jmp t => cases h; exact targetEncodable_iff.mp hwf
  | jeq t | jgt t | jlt t =>
    simp only [transferTarget] at h
    split at h
    · cases h; exact targetEncodable_iff.mp hwf
    · cases h
  | _ => cases h

/-- Settles O39: a run goes on to a target, which is below 32, or to the next address, from below 63. -/
theorem upperHalfEnteredOnlyFromBelow : Obligations.UpperHalfEnteredOnlyFromBelow := by
  intro s t hh ha h hact
  cases cycleTo_of_step ha hh h with
  | @transfer i x hd ht =>
    have hlt := transferTarget_lt (wellFormed_of_decode hd) ht
    rw [State.setPc_pc]
    exact ⟨fun _ _ => by omega, fun _ => .inr ⟨hlt, i, x, hd, ht, rfl⟩⟩
  | advance hd ht hpc =>
    rw [State.setPc_pc, addr_succ_toNat hpc]
    exact ⟨fun _ _ => by omega, fun _ => .inl rfl⟩
  | fault | halt | last => cases hact

/-- Settles O59: the idle step and the two ways that leave the run active report nothing; each of the others ends the run and
reports what it did. -/
theorem reportMadeExactlyWhenTheRunEnds : Obligations.ReportMadeExactlyWhenTheRunEnds := by
  intro s t hh h
  cases ha : s.runActive with
  | false =>
    rw [step_of_idle ha] at h
    cases h
    simp [stepReport_idle ha, ReportFits]
  | true =>
    cases cycleTo_of_step ha hh h with
    | fault hd hr => rw [hr]; exact ⟨⟨rfl, rfl, hd, rfl, rfl, rfl⟩, by simp⟩
    | halt _ hr | last _ _ _ _ hr => rw [hr]; exact ⟨⟨rfl, rfl⟩, by simp⟩
    | transfer _ _ hr | advance _ _ _ hr => simp [hr, ReportFits, ha]

/-! ### Which move writes what -/

/-- Settles O40: a changed register and a changed memory word each name the one write the instruction made. -/
theorem oneKindOfWritePerInstruction : Obligations.OneKindOfWritePerInstruction := by
  intro i s t h
  have heff := execute_effect i s
  obtain rfl := eq_epilogue_of_exec h
  simp only [SameMem, SameRegs, epilogue_readReg, epilogue_memRead, epilogue_flag]
  refine ⟨fun r q hr hq => ?_, fun a b ha hb => ?_, fun r hr => ?_, fun a ha => ?_⟩
  · obtain ⟨v, -, -, hs⟩ := heff.reg_of_ne hr
    by_contra hrq
    rw [hs] at hq
    exact hq (State.writeReg_readReg_other s r v (Ne.symm hrq))
  · obtain ⟨rs, -, hs⟩ := heff.mem_of_ne ha
    by_contra hab
    rw [hs] at hb
    exact hb (State.memWrite_memRead_other s _ (Ne.symm hab))
  · obtain ⟨v, -, hseq, hs⟩ := heff.reg_of_ne hr
    rw [hs]
    exact ⟨fun _ => rfl, rfl, hseq⟩
  · obtain ⟨rs, rfl, hs⟩ := heff.mem_of_ne ha
    rw [hs]
    exact ⟨fun _ => rfl, rfl, rfl⟩

/-- What a move that changes `f`, a part of the state that neither the epilogue nor the exception touches, can be: an instruction
whose execute phase changes it, CREATE, or LOAD. -/
theorem move_of_ne {α : Type} (f : State → α) (hf : ∀ e, f (epilogue e) = f e.state)
    (hact : ∀ (s : State) b, f { s with runActive := b } = f s) {e : Event} {s t : State} (h : move e s = .next t)
    (hne : f t ≠ f s) :
    (e = .host .create) ∨
    (∃ ws, e = .host (.load ws) ∧ ws.length ≤ Config.memWords ∧ t = { s with mem := Memory.load s.mem 0 ws }) ∨
    (e = .cycle ∧ s.runActive = true ∧ ∃ i, decode s.fetch = .ok i ∧ f t = f (execute i s).state) := by
  cases e with
  | cycle =>
    rcases step_cases h with ⟨-, rfl⟩ | ⟨i, ha, hd, he⟩ | ⟨e, -, -, rfl⟩
    · exact absurd rfl hne
    · exact .inr (.inr ⟨rfl, ha, i, hd, by rw [eq_epilogue_of_exec he, hf]⟩)
    · exact absurd (hact s false) hne
  | host op =>
    obtain ⟨-, ⟨rfl, -⟩ | ⟨ws, rfl, hlen, rfl⟩ | ⟨-, rfl⟩ | ⟨-, rfl⟩⟩ := hostMove_cases h
    · exact .inl rfl
    · exact .inr (.inl ⟨ws, rfl, hlen, rfl⟩)
    · exact absurd (hact s true) hne
    · exact absurd rfl hne

/-- Settles O41: LOAD writes no register, and a changed register names the instruction that wrote it. -/
theorem onlyFourInstructionsWriteRegisters : Obligations.OnlyFourInstructionsWriteRegisters := by
  intro e s t r h hne
  rcases move_of_ne (·.readReg r) (epilogue_readReg · r) (fun _ _ => rfl) h hne with
    he | ⟨ws, -, -, rfl⟩ | ⟨he, ha, i, hd, ht⟩
  · exact .inl he
  · exact absurd rfl hne
  · refine .inr ⟨he, ha, ?_⟩
    obtain ⟨v, hw, -, -⟩ := (execute_effect i s).reg_of_ne (ht ▸ hne)
    rcases hw with ⟨imm, rfl, -⟩ | ⟨ra, rb, rfl, -⟩ | ⟨ra, rb, rfl, -⟩ | ⟨a, rfl, -⟩
    · exact .inl ⟨imm, hd⟩
    · exact .inr (.inl ⟨ra, rb, hd⟩)
    · exact .inr (.inr (.inl ⟨ra, rb, hd⟩))
    · exact .inr (.inr (.inr ⟨a, hd⟩))

/-- Settles O42: LOAD leaves the addresses past its words alone, and a changed word names the `sto` that wrote it. -/
theorem onlyStoAndLoadWriteMemory : Obligations.OnlyStoAndLoadWriteMemory := by
  intro e s t a h hne
  rcases move_of_ne (·.memRead a) (epilogue_memRead · a) (fun _ _ => rfl) h hne with
    he | ⟨ws, he, -, rfl⟩ | ⟨he, ha, i, hd, ht⟩
  · exact .inl he
  · refine .inr (.inl ⟨ws, he, ?_⟩)
    by_contra hge
    exact hne (Memory.get_load_above s.mem ws (by omega))
  · obtain ⟨rs, rfl, -⟩ := (execute_effect i s).mem_of_ne (ht ▸ hne)
    exact .inr (.inr ⟨he, ha, rs, hd⟩)

/-- Settles O43: LOAD leaves the flag alone, and `cmp` and a taken conditional jump are the instructions that change it. -/
theorem flagChangesOnlyAsTabled : Obligations.FlagChangesOnlyAsTabled := by
  intro e s t h hne
  rcases move_of_ne (·.flag) epilogue_flag (fun _ _ => rfl) h hne with he | ⟨ws, -, -, rfl⟩ | ⟨he, ha, i, hd, ht⟩
  · exact .inl he
  · exact absurd rfl hne
  · refine .inr ⟨he, ha, ?_⟩
    have hflag : t.flag = (execute i s).state.flag := ht
    rw [hflag] at hne ⊢
    rcases (execute_effect i s).flag_of_ne hne with ⟨imm, r, rfl, hset⟩ | ⟨x, hi, hx, hunset⟩
    · exact .inl ⟨imm, r, hd, hset⟩
    · exact .inr ⟨i, x, hd, hi, hx, hunset⟩

/-- Of the host's moves only CREATE touches the flag. -/
theorem hostMove_flag {op : HostOp} {s t : State} (hop : op ≠ .create) (h : hostMove op s = .next t) : t.flag = s.flag := by
  by_contra hne
  rcases flagChangesOnlyAsTabled (.host op) s t h hne with he | ⟨he, -⟩
  · exact hop (Event.host.inj he)
  · cases he

/-- An instruction that is not `cmp` and transfers no control keeps the flag. -/
theorem execute_flag_of_seq {i : Instr} {s : State} (hcmp : ∀ imm r, i ≠ .cmp imm r) (ht : transferTarget i s.flag = none) :
    (execute i s).state.flag = s.flag := by
  by_contra hne
  rcases (execute_effect i s).flag_of_ne hne with ⟨imm, r, hi, -⟩ | ⟨x, -, hx, -⟩
  · exact hcmp imm r hi
  · simp [ht] at hx

/-- Settles O44: the ways a run can end keep the flag unless by `cmp`; LOAD and RUN do not touch it; and from UNSET no
conditional jump is taken, so nothing but `cmp` changes it. -/
theorem flagOutlivesTheRun : Obligations.FlagOutlivesTheRun := by
  refine ⟨fun s t ha hh h hend hcmp => ?_, fun ws s t h => ?_, fun i s t hh hf h hcmp => ⟨?_, fun ⟨x, hi⟩ => ?_⟩⟩
  · cases cycleTo_of_step ha hh h with
    | fault | halt => rfl
    | last hd _ ht => exact execute_flag_of_seq (fun imm r hi => hcmp imm r (hi ▸ hd)) ht
    | transfer | advance => simp [ha] at hend
  · exact h.elim (hostMove_flag (by simp)) (hostMove_flag (by simp))
  · rw [eq_epilogue_of_exec h, epilogue_flag]
    by_contra hne
    rcases (execute_effect i s).flag_of_ne (hf ▸ hne) with ⟨imm, r, hi, -⟩ | ⟨x, -, -, hunset⟩
    · exact hcmp imm r hi
    · exact hne hunset
  · have hseq : execute i s = ⟨s, .seq⟩ := execute_condJump_not_taken hi (hf ▸ transferTarget_unset hi)
    rw [eq_epilogue_of_exec h, hseq]
    exact advances_epilogue rfl rfl rfl hh

end Sys2Proof.Machine
end

section
/-! Memory and the host (20_memory.md, 70_reset_and_hazards.md section 1, 60_exceptions.md section 5): read after write through
instructions and fetches, the canonical form, and what CREATE, LOAD and RUN leave. -/

namespace Sys2Proof.Machine

/-! ### Memory -/

theorem Memory.wfFrom_cons {lo a : Nat} {v : Word} {m : Memory} : Memory.wfFrom lo ((a, v) :: m) = true ↔
    lo ≤ a ∧ a < Config.memWords ∧ v ≠ Config.memResetWord ∧ m.wfFrom (a + 1) = true := by
  simp [Memory.wfFrom, and_assoc]

/-- A canonical memory that reads at the first listed address of another as that one does lists nothing before it. -/
theorem Memory.not_lt_head {lo a b : Nat} {v : Word} {m n : Memory} (hm : Memory.wfFrom lo ((a, v) :: m) = true)
    (hn : n.wfFrom b = true) (h : Memory.get ((a, v) :: m) a = n.get a) : ¬ a < b := by
  intro hlt
  obtain ⟨-, -, hv, -⟩ := Memory.wfFrom_cons.mp hm
  rw [Memory.get_of_lt hn hlt] at h
  exact hv (by simpa [Memory.get] using h)

/-- Canonical memories that read alike at every address of the machine are the same list. -/
theorem Memory.eq_of_get_eq {m n : Memory} {lo : Nat} (hm : m.wfFrom lo = true) (hn : n.wfFrom lo = true)
    (h : ∀ k < Config.memWords, m.get k = n.get k) : m = n := by
  induction m generalizing n lo with
  | nil =>
    cases n with
    | nil => rfl
    | cons d n =>
      obtain ⟨-, hb, -⟩ := Memory.wfFrom_cons.mp hn
      exact absurd hb (Memory.not_lt_head (n := []) hn rfl (h d.1 hb).symm)
  | cons c m ih =>
    obtain ⟨a, v⟩ := c
    obtain ⟨-, ha, hv, hm'⟩ := Memory.wfFrom_cons.mp hm
    cases n with
    | nil => exact absurd ha (Memory.not_lt_head (n := []) hm rfl (h a ha))
    | cons d n =>
      obtain ⟨b, w⟩ := d
      obtain ⟨-, hb, hw, hn'⟩ := Memory.wfFrom_cons.mp hn
      have hab : ¬ a < b := Memory.not_lt_head hm (Memory.wfFrom_cons.mpr ⟨le_rfl, hb, hw, hn'⟩) (h a ha)
      have hba : ¬ b < a := Memory.not_lt_head hn (Memory.wfFrom_cons.mpr ⟨le_rfl, ha, hv, hm'⟩) (h b hb).symm
      obtain rfl : a = b := by omega
      have hvw : v = w := by simpa [Memory.get] using h a ha
      have htail : ∀ k < Config.memWords, Memory.get m k = Memory.get n k := fun k hk => by
        by_cases hka : k ≤ a
        · rw [Memory.get_of_lt hm' (Nat.lt_succ_of_le hka), Memory.get_of_lt hn' (Nat.lt_succ_of_le hka)]
        · have hne : a ≠ k := by omega
          simpa [Memory.get, hne] using h k hk
      rw [hvw, ih hm' hn' htail]

/-- Settles O47: the case of canonical memories from address 0 up. -/
theorem memoriesThatReadAlikeAreEqual : Obligations.MemoriesThatReadAlikeAreEqual :=
  fun _ _ hm hn h => Memory.eq_of_get_eq hm hn fun k hk => by
    have hmod : k % 64 = k := Nat.mod_eq_of_lt hk
    simpa [hmod] using h (BitVec.ofNat 6 k)

/-- A memory word after `sto` of `rs` to `a`. -/
theorem memRead_of_exec_sto {a : Addr} {rs : Reg} {s t : State} (hwf : s.mem.wf = true) (h : exec (.sto a rs) s = .next t)
    (b : Addr) : t.memRead b = if b = a then s.readReg rs else s.memRead b := by
  have hs : t.memRead b = (s.memWrite a (s.readReg rs)).memRead b := by rw [eq_epilogue_of_exec h, epilogue_memRead]; rfl
  rw [hs]
  split
  · next hb => rw [hb, State.memWrite_memRead_self a _ hwf]
  · next hb => exact State.memWrite_memRead_other s _ hb

/-- Settles O45: `lod` reads what `sto` left. -/
theorem storeThenLoadReturnsTheWord : Obligations.StoreThenLoadReturnsTheWord := by
  intro a b rs rd s t u hwf ht hu
  have hlod : u.readReg rd = t.memRead b := by
    rw [eq_epilogue_of_exec hu, epilogue_readReg]; exact State.writeReg_readReg_self _ _ _
  rw [hlod, memRead_of_exec_sto hwf ht]

/-- Settles O46: the next fetch reads memory after the store. -/
theorem storeSeenByTheNextFetch : Obligations.StoreSeenByTheNextFetch := by
  intro s a rs hwf ha hh hpc hd
  obtain ⟨t, ht⟩ := engineNeverStops s
  have he : exec (.sto a rs) s = .next t := (step_of_ok ha hd).symm.trans ht
  obtain ⟨t', he', -, -, -, hadv, -⟩ := nextPcFollowsTheTable (.sto a rs) s hh
  obtain rfl : t = t' := Host.Outcome.next.inj (he.symm.trans he')
  obtain ⟨hpc', -, -⟩ := hadv (by simp) rfl hpc
  have hread := memRead_of_exec_sto hwf he
  refine ⟨t, ht, hpc', fun hnext => ?_, fun hnext => ?_, fun hself => ?_⟩
  · exact (hread t.pc).trans (if_pos (BitVec.eq_of_toNat_eq (hpc'.trans hnext.symm)))
  · exact (hread t.pc).trans (if_neg fun hp => hnext ((congrArg BitVec.toNat hp).symm.trans hpc'))
  · rw [hread, if_pos hself.symm]

/-! ### The host's moves -/

theorem hostMove_create {s : State} (h : s.runActive = false) : hostMove .create s = .next State.reset := by
  simp [hostMove, h, hostCreate]

theorem hostMove_load {s : State} {ws : List Word} (h : s.runActive = false) (hlen : ws.length ≤ 64) :
    hostMove (.load ws) s = .next { s with mem := Memory.load s.mem 0 ws } := by
  simp [hostMove, h, hostLoad, Config.memWords, hlen]

theorem hostMove_run {s : State} (h : s.runActive = false) : hostMove .run s = .next { s with runActive := true } := by
  simp [hostMove, h, hostRun]

/-- Settles O48: CREATE answers the reset state, whose memory is empty. -/
theorem createLeavesTheTabledValues : Obligations.CreateLeavesTheTabledValues := by
  refine fun s h => ⟨_, hostMove_create h, fun r => ?_, fun _ => rfl, rfl, rfl, rfl, rfl, rfl⟩
  cases r <;> rfl

/-- LOAD of at most 64 words puts word `i` at address `i`. -/
theorem Memory.get_load_zero {m : Memory} {ws : List Word} {i : Nat} (hwf : m.wf = true) (hlen : ws.length ≤ 64)
    (hi : i < ws.length) : (m.load 0 ws).get i = ws[i] := by
  have hword := Memory.get_load_at (k := 0) ws hwf (by simpa [Config.memWords] using hlen) hi
  rwa [Nat.zero_add] at hword

/-- Settles O49: LOAD from address 0 on, at its words and past them. -/
theorem loadReplacesTheFirstWords : Obligations.LoadReplacesTheFirstWords := by
  refine fun ws s hwf h => ⟨fun hlen => ⟨_, hostMove_load h hlen, fun a ha => ?_, fun a ha => ?_, rfl⟩, fun hlen => ?_⟩
  · exact Memory.get_load_zero hwf hlen ha
  · exact Memory.get_load_above s.mem ws (by omega)
  · simp [hostMove, h, hostLoad, Config.memWords, Nat.not_le.mpr hlen]

/-- Settles O51: `hostMove` asks for `run_active` before anything else. -/
theorem hostHasNoMoveDuringRun : Obligations.HostHasNoMoveDuringRun :=
  fun op s => ⟨fun h => by simp [hostMove, h], fun h => by simp [hostMove, h, hostRead]⟩

/-- The first step after RUN at a word the decoder rejects leads back to the idle state before it. -/
theorem step_run_of_error {s : State} {e : ExecutionError} (h : s.runActive = false) (hd : decode s.fetch = .error e) :
    step { s with runActive := true } = .next s ∧
      stepReport { s with runActive := true } = some (.faulted e s.pc s.fetch) := by
  have hback : (State.takeException { s with runActive := true } e s.fetch).state = s := by rw [State.takeException, ← h]
  exact ⟨(step_of_error (s := { s with runActive := true }) rfl hd).trans (congrArg _ hback),
    stepReport_of_error (s := { s with runActive := true }) rfl hd⟩

/-- Settles O50: RUN changes neither `pc` nor memory, so the cycle it starts fetches what `s` would. -/
theorem runStartsAtTheCurrentPc : Obligations.RunStartsAtTheCurrentPc :=
  fun _ h => ⟨_, hostMove_run h, rfl, fun _ hd => step_of_ok rfl hd, fun _ hd => step_run_of_error h hd⟩

/-- Settles O52: the fault keeps `pc` and memory, so RUN fetches the same word again, or the one LOAD put there. -/
theorem faultRepeatsUntilRepaired : Obligations.FaultRepeatsUntilRepaired := by
  refine ⟨fun s t u e ha hd ht hu => ?_, fun s t e ws i h hwf ha hd ht hlen hi => ?_⟩
  · have hts := Host.Outcome.next.inj ((step_of_error ha hd).symm.trans ht)
    subst hts
    have hus := Host.Outcome.next.inj ((hostMove_run (s := (s.takeException e s.fetch).state) rfl).symm.trans hu)
    subst hus
    obtain ⟨hstep, hrep⟩ := step_run_of_error (s := (s.takeException e s.fetch).state) rfl hd
    exact ⟨hstep, hrep.trans (stepReport_of_error ha hd).symm⟩
  · have hts := Host.Outcome.next.inj ((step_of_error ha hd).symm.trans ht)
    subst hts
    refine ⟨_, _, hostMove_load rfl hlen, hostMove_run rfl, rfl, step_of_ok rfl ?_⟩
    exact (congrArg decode (Memory.get_load_zero hwf hlen h)).trans hi

/-- Settles O31: the placed word is what the next cycle fetches. -/
theorem placedWordRunsNext : Obligations.PlacedWordRunsNext := by
  intro s w i hwf hw hd
  have hword : tableWord 32 w = BitVec.ofNat 32 w := by rw [tableWord, Nat.mod_eq_of_lt hw]
  have hfetch : (s.withFetchWord 32 w).fetch = BitVec.ofNat 32 w :=
    (State.memWrite_memRead_self s.pc _ hwf).trans hword
  refine ⟨step_of_ok rfl (hfetch ▸ hd), ?_, fun a ha => State.memWrite_memRead_other s _ ha⟩
  rw [decodeTableWord, hword, hd]

end Sys2Proof.Machine
end

section
/-! Whole runs (R56, R58): runs and answers composed, a run of no-ops to the last address, the endless jump, and RUN's answer. -/

namespace Sys2Proof.Machine

/-! ### Runs and answers, composed -/

/-- A run of `j + k` cycles is one of `k` cycles from the state after `j`. -/
theorem run_append {j : Nat} {s u : State} (h : Host.Core.run Sys2Proof.core j s = .next u) (k : Nat) :
    Host.Core.run Sys2Proof.core (j + k) s = Host.Core.run Sys2Proof.core k u := by
  induction j generalizing s with
  | zero => rw [Nat.zero_add, Host.Outcome.next.inj ((run_zero s).symm.trans h)]
  | succ j ih =>
    obtain ⟨t, ht⟩ := engineNeverStops s
    rw [run_succ ht] at h
    rw [Nat.add_right_comm, run_succ ht, ih h]

/-- A run that has not answered within `j` cycles answers what the rest of it answers. -/
theorem runAnswer_append {j : Nat} {s u : State} (h : Host.Core.run Sys2Proof.core j s = .next u)
    (hn : runAnswer j s = none) (k : Nat) : runAnswer (j + k) s = runAnswer k u := by
  induction j generalizing s with
  | zero => rw [Nat.zero_add, Host.Outcome.next.inj ((run_zero s).symm.trans h)]
  | succ j ih =>
    obtain ⟨t, ht⟩ := engineNeverStops s
    rw [run_succ ht] at h
    cases hr : stepReport s with
    | some r => simp [runAnswer_of_report ht hr] at hn
    | none =>
      rw [runAnswer_succ ht hr] at hn
      rw [Nat.add_right_comm, runAnswer_succ ht hr, ih h hn]

theorem run_keeps_inv {j : Nat} {s u : State} (hs : s.inv = true) (h : Host.Core.run Sys2Proof.core j s = .next u) :
    u.inv = true := by
  induction j generalizing s with
  | zero => exact Host.Outcome.next.inj ((run_zero s).symm.trans h) ▸ hs
  | succ j ih =>
    obtain ⟨t, ht⟩ := engineNeverStops s
    rw [run_succ ht] at h
    exact ih (step_keeps_inv hs ht) h

/-- None of the first `j` cycles from `s` makes a report. -/
def Silent (j : Nat) (s : State) : Prop :=
  ∀ i, i < j → ∃ v, Host.Core.run Sys2Proof.core i s = .next v ∧ stepReport v = none

/-- The first cycle and the rest. -/
theorem silent_succ {j : Nat} {s t : State} (ht : step s = .next t) :
    Silent (j + 1) s ↔ stepReport s = none ∧ Silent j t := by
  refine ⟨fun h => ⟨?_, fun i hi => ?_⟩, fun ⟨hr, h⟩ i hi => ?_⟩
  · obtain ⟨v, hv, hr⟩ := h 0 (Nat.succ_pos j)
    rwa [Host.Outcome.next.inj ((run_zero s).symm.trans hv)]
  · obtain ⟨v, hv, hr⟩ := h (i + 1) (Nat.succ_lt_succ hi)
    exact ⟨v, (run_succ ht i).symm.trans hv, hr⟩
  · cases i with
    | zero => exact ⟨s, run_zero s, hr⟩
    | succ i =>
      obtain ⟨v, hv, hrv⟩ := h i (Nat.lt_of_succ_lt_succ hi)
      exact ⟨v, (run_succ ht i).trans hv, hrv⟩

/-- A run without a report has no answer. -/
theorem runAnswer_of_silent {j : Nat} {s : State} (h : Silent j s) : runAnswer j s = none := by
  induction j generalizing s with
  | zero => exact runAnswer_zero s
  | succ j ih =>
    obtain ⟨t, ht⟩ := engineNeverStops s
    obtain ⟨hr, hrest⟩ := (silent_succ ht).mp h
    rw [runAnswer_succ ht hr, ih hrest]

/-- An answer comes from the first cycle of the run that reports. -/
theorem exists_cycle_of_runAnswer {k : Nat} {s t : State} {r : RunResult} (h : runAnswer k s = some (r, t)) :
    ∃ j u, j < k ∧ Host.Core.run Sys2Proof.core j s = .next u ∧ Silent j s ∧ step u = .next t ∧ stepReport u = some r := by
  induction k generalizing s with
  | zero => cases h
  | succ k ih =>
    obtain ⟨s', hs'⟩ := engineNeverStops s
    cases hr : stepReport s with
    | some q =>
      rw [runAnswer_of_report hs' hr] at h
      cases h
      exact ⟨0, s, Nat.succ_pos k, run_zero s, fun _ hi => absurd hi (Nat.not_lt_zero _), hs', hr⟩
    | none =>
      rw [runAnswer_succ hs' hr] at h
      obtain ⟨j, u, hj, hu, hsil, hstep, hrep⟩ := ih h
      exact ⟨j + 1, u, Nat.succ_lt_succ hj, (run_succ hs' j).trans hu, (silent_succ hs').mpr ⟨hr, hsil⟩, hstep, hrep⟩

/-- The first cycle that reports gives the answer, within any number of cycles that reaches it. -/
theorem runAnswer_of_cycle {j k : Nat} {s u t : State} {r : RunResult} (hj : j < k)
    (hu : Host.Core.run Sys2Proof.core j s = .next u) (hsil : Silent j s) (hstep : step u = .next t)
    (hrep : stepReport u = some r) : runAnswer k s = some (r, t) := by
  obtain ⟨m, rfl⟩ := Nat.exists_eq_add_of_lt hj
  rw [Nat.add_assoc, runAnswer_append hu (runAnswer_of_silent hsil), runAnswer_of_report hstep hrep]

/-! ### The obligations -/

/-- A report that fits leaves no run active. -/
theorem ReportFits.runActive_eq_false {s t : State} {r : RunResult} (h : ReportFits s t (some r)) : t.runActive = false := by
  cases r with
  | terminated => exact h.2
  | faulted =>
    obtain ⟨-, -, -, -, -, ha⟩ := h
    exact ha

/-- Settles O60: the answer is that of the first cycle to report, whose report fits because the run keeps `halt` = 0. -/
theorem runAnswersOnceWithTheLastReport : Obligations.RunAnswersOnceWithTheLastReport := by
  intro k s t r hs
  have hfits {j : Nat} {u : State} (hu : Host.Core.run Sys2Proof.core j s = .next u) (hstep : step u = .next t)
      (hrep : stepReport u = some r) : ReportFits u t (some r) :=
    hrep ▸ (reportMadeExactlyWhenTheRunEnds u t (State.inv_iff.mp (run_keeps_inv hs hu)).2 hstep).1
  refine ⟨⟨fun h => ?_, fun ⟨j, u, hj, hu, hsil, hstep, hrep, _⟩ => runAnswer_of_cycle hj hu hsil hstep hrep⟩, fun h => ?_⟩
  all_goals obtain ⟨j, u, hj, hu, hsil, hstep, hrep⟩ := exists_cycle_of_runAnswer h
  · exact ⟨j, u, hj, hu, hsil, hstep, hrep, hfits hu hstep hrep⟩
  · exact ⟨fun n => runAnswer_of_cycle (by omega) hu hsil hstep hrep, step_keeps_inv (run_keeps_inv hs hu) hstep,
      (hfits hu hstep hrep).runActive_eq_false⟩

/-- Settles O58: the jump's cycle leads back to the state it starts in and reports nothing. -/
theorem jumpToItselfNeverEnds : Obligations.JumpToItselfNeverEnds := by
  intro s ha hh hd k
  have hclose : closeCycle (execute (.jmp s.pc) s) = ⟨s, none⟩ := closeCycle_abs hh
  have hstep : step s = .next s := by rw [step_of_ok ha hd, exec_next, epilogue_eq, hclose]
  have hrep : stepReport s = none := by rw [stepReport_of_ok ha hd, instrReport_eq, hclose]
  induction k with
  | zero => exact ⟨run_zero s, runAnswer_zero s⟩
  | succ k ih => rwa [run_succ hstep, runAnswer_succ hstep hrep]

/-- Every word from `pc` to the last address decodes to a no-op. -/
def NoOpsFromPc (s : State) : Prop := ∀ a : Addr, s.pc.toNat ≤ a.toNat → ∃ i, decode (s.memRead a) = .ok i ∧ isNoOp i = true

/-- A no-op's cycle is the epilogue of the state it starts in. -/
theorem step_of_noOp {s : State} (ha : s.runActive = true) (hn : NoOpsFromPc s) :
    step s = .next (closeCycle ⟨s, .seq⟩).state ∧ stepReport s = (closeCycle ⟨s, .seq⟩).report := by
  obtain ⟨i, hd, hi⟩ := hn s.pc (Nat.le_refl _)
  exact ⟨(step_of_ok ha hd).trans (exec_of_isNoOp hi s),
    by rw [stepReport_of_ok ha hd, instrReport_eq, execute_of_isNoOp hi]⟩

/-- Before the last address a no-op moves `pc` and makes no report. -/
theorem step_of_noOp_below {s : State} (ha : s.runActive = true) (hh : s.halt = false) (hn : NoOpsFromPc s)
    (hpc : s.pc.toNat < 63) : step s = .next (s.setPc (s.pc + 1)) ∧ stepReport s = none := by
  have hne : s.pc ≠ Config.lastAddr := fun he => by rw [he] at hpc; exact absurd hpc (by decide)
  have hstep := step_of_noOp ha hn
  rwa [closeCycle_seq hh, if_neg hne] at hstep

/-- At the last address a no-op ends the run. -/
theorem step_of_noOp_last {s : State} (ha : s.runActive = true) (hh : s.halt = false) (hn : NoOpsFromPc s)
    (hpc : s.pc = Config.lastAddr) : step s = .next s.endRun ∧ stepReport s = some (.terminated .byEndOfMemory) := by
  have hstep := step_of_noOp ha hn
  rwa [closeCycle_seq hh, if_pos hpc] at hstep

theorem NoOpsFromPc.mono {s : State} {p : Addr} (hn : NoOpsFromPc s) (hp : s.pc.toNat ≤ p.toNat) : NoOpsFromPc (s.setPc p) :=
  fun a ha => hn a (hp.trans ha)

/-- No-ops run one a cycle up to the last address. -/
theorem run_of_noOps {k : Nat} {s : State} (ha : s.runActive = true) (hh : s.halt = false) (hn : NoOpsFromPc s)
    (hk : k < 64 - s.pc.toNat) :
    Host.Core.run Sys2Proof.core k s = .next (s.setPc (BitVec.ofNat 6 (s.pc.toNat + k))) ∧ runAnswer k s = none := by
  induction k generalizing s with
  | zero => exact ⟨by simp [run_zero, State.setPc], runAnswer_zero s⟩
  | succ k ih =>
    obtain ⟨hstep, hrep⟩ := step_of_noOp_below ha hh hn (by omega)
    have hsucc : (s.pc + 1).toNat = s.pc.toNat + 1 := addr_succ_toNat (by omega)
    rw [run_succ hstep, runAnswer_succ hstep hrep]
    have := ih (s := s.setPc (s.pc + 1)) ha hh (hn.mono (by omega)) (by rw [State.setPc_pc]; omega)
    rwa [State.setPc_pc, hsucc, Nat.add_assoc, Nat.add_comm 1 k] at this

/-- Settles O57: no-ops to address 63, and the one there, which ends the run. -/
theorem noOpsRunOffTheEnd : Obligations.NoOpsRunOffTheEnd := by
  intro s ha hh hn
  refine ⟨fun k hk => run_of_noOps ha hh hn hk, ?_⟩
  obtain ⟨hrun, hanswer⟩ := run_of_noOps (k := 63 - s.pc.toNat) ha hh hn (by omega)
  have hk : 64 - s.pc.toNat = (63 - s.pc.toNat) + 1 := by omega
  have hpc : BitVec.ofNat 6 (s.pc.toNat + (63 - s.pc.toNat)) = Config.lastAddr := by
    rw [Nat.add_sub_cancel' (by omega)]; rfl
  rw [hpc] at hrun
  obtain ⟨hstep, hrep⟩ := step_of_noOp_last (s := s.setPc Config.lastAddr) ha hh
    (NoOpsFromPc.mono hn (Nat.le_of_lt_succ s.pc.isLt)) rfl
  have hend : (s.setPc Config.lastAddr).endRun = { s with pc := 0, runActive := false } := by
    simp [State.endRun, State.setPc, hh]
  rw [hk, run_append hrun, runAnswer_append hrun hanswer, run_succ hstep, runAnswer_of_report hstep hrep, run_zero, hend]
  exact ⟨rfl, rfl⟩

end Sys2Proof.Machine
end
